-- ==== Sys2Proof/Config.lean ====
section
/-! DEFINITION. The implementation parameters of VM3 (spec/00_scope.md R5): their decided values, and the constraints
between them. Every type and operation of the machine takes the parameters it needs as named arguments `xlen`, `cellw`,
`lenMax`, `ipw` and `shamtOver` with the decided values as defaults, so that `State`, `step` and the like, written without
arguments, are those of the decided machine (log entry 5). -/
namespace Sys2Proof

/-- XLEN: the width in bits of A, B and C (R5, decision D1). -/
abbrev Config.xlen : Nat := 64

/-- CELLW: the width in bits of one program cell (R5, decision D2). -/
abbrev Config.cellw : Nat := 8

/-- LEN_MAX: the largest program length in cells (R5, decision D3). -/
abbrev Config.lenMax : Nat := 256

/-- IPW: the width in bits of ip (R5, decision D3). -/
abbrev Config.ipw : Nat := 9

/-- The two values of the parameter SHAMT_OVER (R5). -/
inductive Config.ShamtOver where
  /-- The result of an over-wide shift is 0. -/
  | zero
  /-- An over-wide shift stops the model with a fault of its own naming (R67 point c). -/
  | fault
deriving DecidableEq, Repr

/-- SHAMT_OVER: what a right shift by XLEN or more gives (R5, R67, decision D5). -/
def Config.shamtOver : Config.ShamtOver := .zero

/-- The constraints between the parameters "which every choice must keep": XLEN >= CELLW >= 4 and
2^IPW > max(LEN_MAX, 2^CELLW - 1) (R5). -/
structure Config.Admissible (xlen cellw lenMax ipw : Nat) : Prop where
  cell_le_word : cellw ≤ xlen
  cell_holds_invalid_opcode : 4 ≤ cellw
  ip_holds_len : lenMax < 2 ^ ipw
  ip_holds_target : 2 ^ cellw - 1 < 2 ^ ipw

end Sys2Proof
end

