-- ==== Sys2Proof/Word.lean ====
section
/-! DEFINITION. The words of VM3: registers, cells, cell indices and digits, each with its width as a named argument. The
defaults are written as numerals, so that arithmetic procedures see them; `Sys2Proof/Laws/Word.lean` ties each to the
decided value in `Sys2Proof/Config.lean`. -/
namespace Sys2Proof

/-- The value of a general register, XLEN bits, unsigned (spec/10_state.md R9). -/
abbrev Word (xlen : Nat := 64) := BitVec xlen

/-- One program cell, CELLW bits, unsigned (spec/10_state.md R17). -/
abbrev Cell (cellw : Nat := 8) := BitVec cellw

/-- A cell index as ip holds it, IPW bits (spec/10_state.md R14). -/
abbrev CellIndex (ipw : Nat := 9) := BitVec ipw

/-- One element of the output sequence, a 3-bit digit (spec/44_emit.md R79). -/
abbrev Digit := BitVec 3

/-- A program length LEN, 0 to LEN_MAX; the type excludes every other value (spec/10_state.md R17,
spec/93_implementation_defined.md U12). -/
abbrev ProgLen (lenMax : Nat := 256) := Fin (lenMax + 1)

end Sys2Proof
end

