-- ==== Sys2Proof/Syntax.lean ====
section
/-! DEFINITION. The instructions of VM3, whole: one constructor per row of spec/opcode_table.json. -/
namespace Sys2Proof

/-- The eight instructions (spec/30_encoding.md R47). Each carries its operand cell as fetched: how the cell is read
depends on the opcode alone (R43), and a combo cell without a meaning is an event of EXECUTION (R45), so the cell is
kept whole here. `cellw` is CELLW (spec/00_scope.md R5). -/
inductive Instr (cellw : Nat := 8) where
  /-- opcode 0, spec/41_shift.md R68 -/
  | shiftA (operand : Cell cellw)
  /-- opcode 1, spec/42_blogic.md R71 -/
  | xorBLiteral (operand : Cell cellw)
  /-- opcode 2, spec/42_blogic.md R72 -/
  | storeBMod8 (operand : Cell cellw)
  /-- opcode 3, spec/43_jump.md R75 -/
  | jumpIfANonzero (operand : Cell cellw)
  /-- opcode 4, spec/42_blogic.md R73 -/
  | xorBC (operand : Cell cellw)
  /-- opcode 5, spec/44_emit.md R78 -/
  | emit (operand : Cell cellw)
  /-- opcode 6, spec/41_shift.md R69 -/
  | shiftBFromA (operand : Cell cellw)
  /-- opcode 7, spec/41_shift.md R70 -/
  | shiftCFromA (operand : Cell cellw)
deriving DecidableEq, Repr

/-- The three ways an operand is read (spec/30_encoding.md R42). -/
inductive OperandKind where
  | combo
  | literal
  | ignored
deriving DecidableEq, Repr

variable {cellw : Nat}

/-- The operand kind, decided by the opcode alone (spec/30_encoding.md R43, R44). -/
def Instr.kind : Instr cellw → OperandKind
  | .shiftA _ => .combo
  | .xorBLiteral _ => .literal
  | .storeBMod8 _ => .combo
  | .jumpIfANonzero _ => .literal
  | .xorBC _ => .ignored
  | .emit _ => .combo
  | .shiftBFromA _ => .combo
  | .shiftCFromA _ => .combo

/-- The operand cell of an instruction. -/
def Instr.operand : Instr cellw → Cell cellw
  | .shiftA v => v
  | .xorBLiteral v => v
  | .storeBMod8 v => v
  | .jumpIfANonzero v => v
  | .xorBC v => v
  | .emit v => v
  | .shiftBFromA v => v
  | .shiftCFromA v => v

end Sys2Proof
end

