-- ==== Sys2Proof/WellFormed.lean ====
section
/-! DEFINITION. Which instructions are legal encodings (spec/30_encoding.md R45 to R53). -/
namespace Sys2Proof

variable {cellw : Nat}

/-- A combo cell has a meaning exactly when it is 0 to 6 (spec/30_encoding.md R45, R51, R52). -/
def comboCellOk (v : Cell cellw) : Bool := v.toNat ≤ 6

/-- An instruction is well-formed when its operand cell is legal for its operand kind: 0 to 6 in combo position, any
cell as a literal or ignored (spec/30_encoding.md R46, R48, R51, R52; spec/00_scope.md R6 c). -/
def Instr.wellFormed (i : Instr cellw) : Bool :=
  match i.kind with
  | .combo => comboCellOk i.operand
  | .literal => true
  | .ignored => true

end Sys2Proof
end

