-- ==== Sys2Proof/Decode.lean ====
section
/-! DEFINITION. Decoding cells to instructions, and encoding instructions to cells (spec/30_encoding.md R40 to R53). -/
namespace Sys2Proof

variable {cellw : Nat}

/-- Why cells are no instruction. -/
inductive DecodeError (cellw : Nat := 8) where
  /-- Fewer than two cells are left: an instruction is exactly two (spec/30_encoding.md R40). -/
  | truncated
  /-- The opcode cell is above 7 (spec/30_encoding.md R50). -/
  | invalidOpcode (opcode : Cell cellw)
deriving DecidableEq, Repr

/-- The instruction that an opcode cell and an operand cell are: the opcode cell's whole value selects the row
(spec/30_encoding.md R47), a value above 7 selects none (R50). -/
def decodePair (opcode operand : Cell cellw) : Except (DecodeError cellw) (Instr cellw) :=
  match opcode.toNat with
  | 0 => .ok (.shiftA operand)
  | 1 => .ok (.xorBLiteral operand)
  | 2 => .ok (.storeBMod8 operand)
  | 3 => .ok (.jumpIfANonzero operand)
  | 4 => .ok (.xorBC operand)
  | 5 => .ok (.emit operand)
  | 6 => .ok (.shiftBFromA operand)
  | 7 => .ok (.shiftCFromA operand)
  | _ => .error (.invalidOpcode opcode)

/-- The first instruction of a sequence of cells, with the cells after it: the opcode is the cell at the lower index
(spec/20_memory.md R30, spec/30_encoding.md R40, R41). -/
def decode : List (Cell cellw) → Except (DecodeError cellw) (Instr cellw × List (Cell cellw))
  | opcode :: operand :: rest =>
    match decodePair opcode operand with
    | .ok i => .ok (i, rest)
    | .error e => .error e
  | [_] => .error .truncated
  | [] => .error .truncated

/-- The opcode number of an instruction as its cell (spec/30_encoding.md R47). -/
def Instr.opcode : Instr cellw → Cell cellw
  | .shiftA _ => 0
  | .xorBLiteral _ => 1
  | .storeBMod8 _ => 2
  | .jumpIfANonzero _ => 3
  | .xorBC _ => 4
  | .emit _ => 5
  | .shiftBFromA _ => 6
  | .shiftCFromA _ => 7

/-- The two cells of an instruction, opcode first (spec/30_encoding.md R41, R54). -/
def encode (i : Instr cellw) : List (Cell cellw) := [i.opcode, i.operand]

/-- The cells of a list of instructions in order: "two cells per line, in line order from cell 0"
(spec/30_encoding.md R54). -/
def encodeProgram : List (Instr cellw) → List (Cell cellw)
  | [] => []
  | i :: is => encode i ++ encodeProgram is

/-- The instructions that a sequence of cells holds, read pairwise from cell 0; refused at the first pair that is none
and at a last single cell (spec/30_encoding.md R40, R50). -/
def decodeProgram : List (Cell cellw) → Except (DecodeError cellw) (List (Instr cellw))
  | [] => .ok []
  | [_] => .error .truncated
  | opcode :: operand :: rest =>
    match decodePair opcode operand, decodeProgram rest with
    | .ok i, .ok is => .ok (i :: is)
    | .error e, _ => .error e
    | _, .error e => .error e

/-- The 16-bit notational word of a pair: opcode cell in bits 15:8, operand cell in bits 7:0
(spec/20_memory.md R30, spec/30_encoding.md R41). -/
def pairWord (opcode operand : Cell) : BitVec 16 := opcode ++ operand

/-- The two cells of a word numbered as spec/opcode_table.json numbers it, in the order the program store holds them:
the opcode cell is bits 15:8 and comes first. Bits from `nbits` up are 0. (Log entry 1.) -/
def tableCells (nbits w : Nat) : List Cell :=
  let word := w % 2 ^ nbits
  [BitVec.ofNat 8 (word / 256), BitVec.ofNat 8 word]

/-- What the decoder reads from a table word (log entry 1). -/
def decodeTableWord (nbits w : Nat) : Option Instr :=
  match decode (tableCells nbits w) with
  | .ok (i, _) => some i
  | .error _ => none

end Sys2Proof
end

