-- ==== Sys2Proof/Machine/State.lean ====
section
/-! DEFINITION. The state of VM3 (spec/10_state.md), what a step can stop with, and the power-on state. -/
namespace Sys2Proof.Machine

/-- STATUS: the five legal values; 5 to 7 never occur, so the type has none (spec/10_state.md R19,
spec/93_implementation_defined.md U19). -/
inductive Status where
  /-- 0: powered on, or loaded; no run since -/
  | idle
  /-- 1: a run is in progress -/
  | running
  /-- 2: the run ended because ip left the program -/
  | haltEnd
  /-- 3: a VERIFY run ended early at a divergence -/
  | haltDiverged
  /-- 4: a fault aborted the run -/
  | fault
deriving DecidableEq, Repr

/-- CAUSE (spec/10_state.md R20). -/
inductive Cause where
  | none
  | invalidOpcode
  | invalidCombo
  | fetchOutOfRange
deriving DecidableEq, Repr

/-- MODE, a launch input (spec/44_emit.md R82). -/
inductive Mode where
  | full
  | verify
deriving DecidableEq, Repr

/-- The three faults of the machine, with the cell that FAULT_VAL records where there is one
(spec/60_exceptions.md R87 to R89). -/
inductive Trap (cellw : Nat := 8) where
  | invalidOpcode (opcode : Cell cellw)
  | invalidCombo (operand : Cell cellw)
  | fetchOutOfRange
deriving DecidableEq, Repr

/-- The program store: the cells that hold something else than what an unlisted cell reads as (`Memory.unlisted`), with
their cell indices strictly rising (spec/20_memory.md R26). With cells of 8 bits it is a list of `Host.Cell`. -/
abbrev Memory (cellw : Nat := 8) := List (Nat × Cell cellw)

/-- Which launch inputs a LOAD has supplied since power-on (spec/70_reset_and_hazards.md R103, R107; log entry 9). -/
structure Loaded where
  program : Bool
  aInit : Bool
  bInit : Bool
  cInit : Bool
  mode : Bool
deriving DecidableEq, Repr

/-- The whole state of VM3 (spec/10_state.md section 1), its launch inputs (R17, R18) and what has been loaded. The
arguments are the parameters XLEN, CELLW, LEN_MAX and IPW at their decided values (spec/00_scope.md R5). -/
structure State (xlen : Nat := 64) (cellw : Nat := 8) (lenMax : Nat := 256) (ipw : Nat := 9) where
  /-- general register A (R9) -/
  a : Word xlen
  /-- general register B (R9) -/
  b : Word xlen
  /-- general register C (R9) -/
  c : Word xlen
  /-- the instruction pointer, a cell index (R14) -/
  ip : CellIndex ipw
  /-- the output sequence, first emitted first (R16) -/
  out : List Digit
  /-- STATUS (R19) -/
  status : Status
  /-- CAUSE (R20) -/
  cause : Cause
  /-- FAULT_IP (R20) -/
  faultIp : CellIndex ipw
  /-- FAULT_VAL (R20) -/
  faultVal : Cell cellw
  /-- DIV_POS (R20) -/
  divPos : CellIndex ipw
  /-- DIV_DIGIT (R20) -/
  divDigit : Digit
  /-- the cells of the program store, PROG (R17) -/
  prog : Memory cellw
  /-- LEN, the number of cells of the loaded program (R17) -/
  len : ProgLen lenMax
  /-- A_init (R18) -/
  aInit : Word xlen
  /-- B_init (R18) -/
  bInit : Word xlen
  /-- C_init (R18) -/
  cInit : Word xlen
  /-- MODE (R18, R82) -/
  mode : Mode
  /-- which launch inputs have been loaded since power-on (R103, R107) -/
  loaded : Loaded
deriving DecidableEq, Repr

/-- Nothing has been loaded. -/
def Loaded.nothing : Loaded := ⟨false, false, false, false, false⟩

/-- A machine of any parameters after power-on: STATUS = IDLE and CAUSE = 0 (spec/10_state.md R23). Every other value here
is the model's DESIGN CHOICE (log entries 2 and 3); `loaded` is what "since power-on" means at power-on (log entry 9). -/
def State.powerOn {xlen cellw lenMax ipw : Nat} : State xlen cellw lenMax ipw where
  a := 0
  b := 0
  c := 0
  ip := 0
  out := []
  status := .idle
  cause := .none
  faultIp := 0
  faultVal := 0
  divPos := 0
  divDigit := 0
  prog := []
  len := 0
  aInit := 0
  bInit := 0
  cInit := 0
  mode := .full
  loaded := Loaded.nothing

/-- The machine after power-on, with the decided parameters. -/
def State.reset : State := State.powerOn

/-- Why the MODEL stops without a next state. The machine's own three faults are no stops: they are next states with
STATUS = FAULT (spec/60_exceptions.md R90). -/
inductive Fault where
  /-- Raised by `step` when STATUS is not RUNNING: the machine has no step there (spec/40_execution_cycle.md R55,
  spec/93_implementation_defined.md U18, `stuck`). Safe. -/
  | noStep (status : Status)
  /-- Raised by the right shift when the amount is XLEN or more and SHAMT_OVER is `fault` (spec/41_shift.md R67 point c,
  "a fault of its own naming"), with that amount. No state reaches it under the decided value `zero`. Safe. -/
  | shiftAmount (amount : Nat)
deriving DecidableEq, Repr

/-- What the model does not offer. -/
inductive Refusal where
  /-- Raised by `exec` for an instruction without a meaning; every instruction has one, so nothing raises it. Safe. -/
  | notModelled (mnemonic : String)
  /-- Raised by LOAD and START while STATUS is RUNNING: "not defined by this spec, and a model should give the host no
  such move" (spec/70_reset_and_hazards.md R105, spec/93_implementation_defined.md U15). Safe. -/
  | hostMoveWhileRunning
  /-- Raised by START before a complete LOAD since power-on (spec/70_reset_and_hazards.md R103, R107,
  spec/93_implementation_defined.md U14). Safe. -/
  | startBeforeLoad
  /-- Raised by a READ of anything but STATUS while STATUS is RUNNING (spec/70_reset_and_hazards.md R108,
  spec/93_implementation_defined.md U16). Safe. -/
  | readWhileRunning
deriving DecidableEq, Repr

end Sys2Proof.Machine
end

