-- ==== Sys2Proof/Machine/Ops.lean ====
section
/-! DEFINITION. The named operations over the program store, the registers, ip, the output sequence and the status
fields; taking a fault; fetching. -/

/-- `x mod 8`, that is `x[2:0]` (spec/00_scope.md section 5, spec/42_blogic.md R74). -/
def Sys2Proof.Word.mod8 {xlen : Nat} (x : Sys2Proof.Word xlen) : Sys2Proof.Digit := x.setWidth 3

/-- A digit as a cell value, for the comparison of the whole cell with the digit (spec/44_emit.md R83). -/
def Sys2Proof.Digit.toCell {cellw : Nat} (d : Sys2Proof.Digit) : Sys2Proof.Cell cellw := d.setWidth cellw

namespace Sys2Proof.Machine

variable {xlen cellw lenMax ipw : Nat}

/-! ### The program store -/

/-- What a cell that is not listed reads as. DESIGN CHOICE, unsafe: the spec gives the program store no contents before
the first LOAD (spec/10_state.md R23; log entry 3). -/
def Memory.unlisted {cellw : Nat} : Cell cellw := 0

/-- The cell at an index of the store: `MemRead(i, 1)` is PROG[i] (spec/20_memory.md R36). -/
def Memory.read : Memory cellw → Nat → Cell cellw
  | [], _ => Memory.unlisted
  | (k, x) :: m, i => if i = k then x else Memory.read m i

/-- The store with one cell replaced, in canonical form again: writing the unlisted value removes the entry. -/
def Memory.write : Memory cellw → Nat → Cell cellw → Memory cellw
  | [], i, x => if x = Memory.unlisted then [] else [(i, x)]
  | (k, y) :: m, i, x =>
    if i < k then (if x = Memory.unlisted then (k, y) :: m else (i, x) :: (k, y) :: m)
    else if i = k then (if x = Memory.unlisted then m else (i, x) :: m)
    else (k, y) :: Memory.write m i x

/-- The store with consecutive cells replaced, from an index on. -/
def Memory.writeCells (m : Memory cellw) (i : Nat) : List (Cell cellw) → Memory cellw
  | [] => m
  | x :: xs => Memory.writeCells (Memory.write m i x) (i + 1) xs

/-- The addresses rise strictly, the first of them being at least `low`, all lie inside the LEN_MAX cells of the store,
and no entry holds the unlisted value. -/
def Memory.wfFrom (low : Nat) (m : Memory cellw) (lenMax : Nat := 256) : Bool :=
  match m with
  | [] => true
  | (k, x) :: m => low ≤ k && k < lenMax && x ≠ Memory.unlisted && Memory.wfFrom (k + 1) m lenMax

/-- The canonical form of the store: equal stores are equal lists. -/
def Memory.wf (m : Memory cellw) (lenMax : Nat := 256) : Bool := Memory.wfFrom 0 m lenMax

/-- `MemRead(i, 1)` with its precondition i + 1 <= LEN: outside 0 .. LEN-1 there is no cell (spec/20_memory.md R27, R34). -/
def State.memRead (s : State xlen cellw lenMax ipw) (i : Nat) : Option (Cell cellw) :=
  if i < s.len.val then some (Memory.read s.prog i) else none

/-! ### The general registers -/

/-- The names of the three general registers (spec/10_state.md R9). -/
inductive Reg where
  | a
  | b
  | c
deriving DecidableEq, Repr

/-- `x[r]` (spec/00_scope.md section 5). -/
def State.readReg (s : State xlen cellw lenMax ipw) : Reg → Word xlen
  | .a => s.a
  | .b => s.b
  | .c => s.c

/-- `x[r] <- v`: the other two registers keep their values, since the three do not alias (spec/10_state.md R9). -/
def State.writeReg (s : State xlen cellw lenMax ipw) (r : Reg) (v : Word xlen) : State xlen cellw lenMax ipw :=
  { s with
    a := if r = .a then v else s.a
    b := if r = .b then v else s.b
    c := if r = .c then v else s.c }

/-! ### The instruction pointer -/

/-- `ip <- ip + 2` (spec/40_execution_cycle.md R59). -/
def State.advance (s : State xlen cellw lenMax ipw) : State xlen cellw lenMax ipw := { s with ip := s.ip + 2 }

/-- `ip <- target`, an absolute cell index, no advance besides (spec/43_jump.md R75). -/
def State.jumpTo (s : State xlen cellw lenMax ipw) (target : CellIndex ipw) : State xlen cellw lenMax ipw :=
  { s with ip := target }

/-! ### The output sequence -/

/-- `Append(out, d)` (spec/20_memory.md R29, spec/44_emit.md R80). -/
def State.append (s : State xlen cellw lenMax ipw) (d : Digit) : State xlen cellw lenMax ipw :=
  { s with out := s.out ++ [d] }

/-! ### Ends of a run -/

/-- The CAUSE of a fault (spec/60_exceptions.md section 1). -/
def Trap.cause : Trap cellw → Cause
  | .invalidOpcode _ => .invalidOpcode
  | .invalidCombo _ => .invalidCombo
  | .fetchOutOfRange => .fetchOutOfRange

/-- What FAULT_VAL records for a fault: the offending cell, or 0 (spec/60_exceptions.md R90). -/
def Trap.value : Trap cellw → Cell cellw
  | .invalidOpcode opcode => opcode
  | .invalidCombo operand => operand
  | .fetchOutOfRange => 0

/-- Fault entry, `raise F(info)`: the one shared operation that takes a fault. It writes CAUSE, FAULT_IP, FAULT_VAL and
STATUS and nothing else; no control transfer happens (spec/60_exceptions.md R90). There is no return from a fault
(R91). -/
def State.raise (s : State xlen cellw lenMax ipw) (t : Trap cellw) : State xlen cellw lenMax ipw :=
  { s with cause := t.cause, faultIp := s.ip, faultVal := t.value, status := .fault }

/-- `halt HALT_END`: STATUS changes and nothing else (spec/40_execution_cycle.md R56). -/
def State.haltEnd (s : State xlen cellw lenMax ipw) : State xlen cellw lenMax ipw := { s with status := .haltEnd }

/-- `Diverge(k, d)` with k the length of out: DIV_POS, DIV_DIGIT and STATUS change and nothing else
(spec/44_emit.md R78, R84). In a VERIFY run k is at most LEN, which DIV_POS holds whole (R85; log entry 12). -/
def State.diverge (s : State xlen cellw lenMax ipw) (d : Digit) : State xlen cellw lenMax ipw :=
  { s with divPos := BitVec.ofNat ipw s.out.length, divDigit := d, status := .haltDiverged }

/-! ### Launch -/

/-- The launch reset, one atomic transition (spec/10_state.md R22). -/
def State.launch (s : State xlen cellw lenMax ipw) : State xlen cellw lenMax ipw :=
  { s with
    a := s.aInit
    b := s.bInit
    c := s.cInit
    ip := 0
    out := []
    status := .running
    cause := .none
    faultIp := 0
    faultVal := 0
    divPos := 0
    divDigit := 0 }

/-! ### Fetch -/

/-- What a step finds at ip (spec/40_execution_cycle.md R57, checks 1 to 3). -/
inductive Fetched (cellw : Nat := 8) where
  /-- ip >= LEN: the run is over (R56) -/
  | pastEnd
  /-- ip = LEN - 1: the operand cell is outside the program (R57 check 2) -/
  | operandMissing
  /-- both cells of the instruction -/
  | pair (opcode operand : Cell cellw)
deriving DecidableEq, Repr

/-- The cells at ip and ip + 1, where both are inside the program (spec/40_execution_cycle.md R57; spec/20_memory.md
R27, R32). ip needs no alignment (R31). The index ip + 1 is a number, so it never wraps (spec/10_state.md R15). -/
def State.fetch (s : State xlen cellw lenMax ipw) : Fetched cellw :=
  match s.memRead s.ip.toNat, s.memRead (s.ip.toNat + 1) with
  | none, _ => .pastEnd
  | some _, none => .operandMissing
  | some opcode, some operand => .pair opcode operand

end Sys2Proof.Machine
end

