-- ==== Sys2Proof/Machine/Operands.lean ====
section
/-! DEFINITION. Operand resolution: combo and literal operands (spec/30_encoding.md R42 to R48). -/
namespace Sys2Proof.Machine

variable {xlen cellw lenMax ipw : Nat}

/-- What a combo cell selects: its own value, or a register. -/
inductive ComboSource (cellw : Nat := 8) where
  | value (v : Cell cellw)
  | register (r : Reg)
deriving DecidableEq, Repr

/-- The meaning of a combo cell: 0 to 3 are themselves, 4, 5, 6 are A, B, C in that order, anything else has none
(spec/30_encoding.md R45, R51, R52; spec/00_scope.md R8). -/
def comboSource (v : Cell cellw) : Option (ComboSource cellw) :=
  match v.toNat with
  | 0 => some (.value v)
  | 1 => some (.value v)
  | 2 => some (.value v)
  | 3 => some (.value v)
  | 4 => some (.register .a)
  | 5 => some (.register .b)
  | 6 => some (.register .c)
  | _ => none

/-- The value of a combo source: a cell zero-extended to XLEN, or the register before any write of the instruction
(spec/30_encoding.md R45, spec/10_state.md R11). -/
def ComboSource.eval (s : State xlen cellw lenMax ipw) : ComboSource cellw → Word xlen
  | .value v => v.setWidth xlen
  | .register r => s.readReg r

/-- `Combo(v)`, where it has a value (spec/30_encoding.md R45). -/
def combo (s : State xlen cellw lenMax ipw) (v : Cell cellw) : Option (Word xlen) :=
  (comboSource v).map (ComboSource.eval s)

/-- Resolves the combo operand of an instruction before anything is written, and goes on with its value; a cell outside
0 .. 6 raises InvalidCombo(ip, v) and the instruction has no effect (spec/30_encoding.md R45; spec/60_exceptions.md R88;
spec/40_execution_cycle.md R58). -/
def withCombo (s : State xlen cellw lenMax ipw) (v : Cell cellw)
    (body : Word xlen → Host.Outcome (State xlen cellw lenMax ipw) Fault Refusal) :
    Host.Outcome (State xlen cellw lenMax ipw) Fault Refusal :=
  match combo s v with
  | some x => body x
  | none => .next (s.raise (.invalidCombo v))

/-- `zext_XLEN(Literal(v))`, the literal of opcode 1 (spec/30_encoding.md R46). -/
def literalWord (v : Cell cellw) : Word xlen := v.setWidth xlen

/-- `zext_IPW(Literal(v))`, the jump target of opcode 3 (spec/30_encoding.md R46). -/
def literalTarget (v : Cell cellw) : CellIndex ipw := v.setWidth ipw

end Sys2Proof.Machine
end

