-- ==== Sys2Proof/Machine/BLogic.lean ====
section
/-! DEFINITION. The B-register logic family, opcodes 1, 2 and 4 (spec/42_blogic.md). -/
namespace Sys2Proof.Machine

variable {xlen cellw lenMax ipw : Nat}

/-- `xor-B-literal` (spec/42_blogic.md R71). -/
def execXorBLiteral (v : Cell cellw) (s : State xlen cellw lenMax ipw) :
    Host.Outcome (State xlen cellw lenMax ipw) Fault Refusal :=
  .next (s.writeReg .b (s.b ^^^ literalWord v)).advance

/-- `store-B-mod8` (spec/42_blogic.md R72). -/
def execStoreBMod8 (v : Cell cellw) (s : State xlen cellw lenMax ipw) :
    Host.Outcome (State xlen cellw lenMax ipw) Fault Refusal :=
  withCombo s v fun x => .next (s.writeReg .b (x.mod8.setWidth xlen)).advance

/-- `xor-B-C`: the operand cell is neither used nor checked (spec/42_blogic.md R73, spec/30_encoding.md R48). -/
def execXorBC (_v : Cell cellw) (s : State xlen cellw lenMax ipw) :
    Host.Outcome (State xlen cellw lenMax ipw) Fault Refusal :=
  .next (s.writeReg .b (s.b ^^^ s.c)).advance

end Sys2Proof.Machine
end

