-- ==== Sys2Proof/Machine/Flags.lean ====
section
/-! DEFINITION. VM3 has no flags (spec/10_state.md R21). What stands here in their place is every test an instruction
makes: the jump's test of A and the VERIFY comparator. -/
namespace Sys2Proof.Machine

variable {xlen cellw lenMax ipw : Nat}

/-- The jump's condition: any bit of A is 1 (spec/43_jump.md R75). -/
def State.aNonzero (s : State xlen cellw lenMax ipw) : Bool := s.a ≠ 0

/-- The VERIFY comparator: with k the length of out, the digit diverges exactly when there is no PROG[k] or PROG[k] is not
the digit, compared as whole integers; never in a FULL run (spec/44_emit.md R78, R82, R83). -/
def State.diverges (s : State xlen cellw lenMax ipw) (d : Digit) : Bool :=
  match s.mode with
  | .full => false
  | .verify =>
    match s.memRead s.out.length with
    | none => true
    | some cell => cell ≠ d.toCell

end Sys2Proof.Machine
end

