-- ==== Sys2Proof/Machine/Emit.lean ====
section
/-! DEFINITION. Emit, opcode 5, with the divergence halt of the VERIFY mode (spec/44_emit.md). -/
namespace Sys2Proof.Machine

variable {xlen cellw lenMax ipw : Nat}

/-- `emit`: the operand is resolved first, then the digit is tested against the program in a VERIFY run, then it is
appended (spec/44_emit.md R78, R83, R84; spec/40_execution_cycle.md R65). -/
def execEmit (v : Cell cellw) (s : State xlen cellw lenMax ipw) :
    Host.Outcome (State xlen cellw lenMax ipw) Fault Refusal :=
  withCombo s v fun x =>
    if s.diverges x.mod8 then .next (s.diverge x.mod8) else .next (s.append x.mod8).advance

end Sys2Proof.Machine
end

