-- ==== Sys2Proof/Machine/Jump.lean ====
section
/-! DEFINITION. Control transfer, opcode 3 (spec/43_jump.md). -/
namespace Sys2Proof.Machine

variable {xlen cellw lenMax ipw : Nat}

/-- `jump-if-A-nonzero`: every operand value is a legal target (spec/43_jump.md R75 to R77). -/
def execJumpIfANonzero (v : Cell cellw) (s : State xlen cellw lenMax ipw) :
    Host.Outcome (State xlen cellw lenMax ipw) Fault Refusal :=
  if s.aNonzero then .next (s.jumpTo (literalTarget v)) else .next s.advance

end Sys2Proof.Machine
end

