-- ==== Sys2Proof/Machine/Shift.lean ====
section
/-! DEFINITION. The shift family, opcodes 0, 6 and 7 (spec/41_shift.md). `shamtOver` is the parameter SHAMT_OVER
(spec/00_scope.md R5). -/
namespace Sys2Proof.Machine

variable {xlen cellw lenMax ipw : Nat}

/-- `Shr(v, s)` for a value of SHAMT_OVER: zero filling, the whole amount counts, and an amount of XLEN or more gives
0 or no result as SHAMT_OVER says (spec/41_shift.md R67). -/
def shrUnder (shamtOver : Config.ShamtOver) (v amount : Word xlen) : Option (Word xlen) :=
  if amount.toNat < xlen then some (v >>> amount.toNat)
  else
    match shamtOver with
    | .zero => some 0
    | .fault => none

/-- `Shr(v, s)` under the decided SHAMT_OVER (spec/41_shift.md R67). -/
def shr (v amount : Word xlen) : Option (Word xlen) := shrUnder Config.shamtOver v amount

/-- What the three shifts share: resolve the amount, shift A right by it, write the destination, advance
(spec/41_shift.md R68 to R70). Both reads are of the state before the write (spec/10_state.md R11). -/
def shiftInto (dest : Reg) (v : Cell cellw) (s : State xlen cellw lenMax ipw)
    (shamtOver : Config.ShamtOver := Config.shamtOver) : Host.Outcome (State xlen cellw lenMax ipw) Fault Refusal :=
  withCombo s v fun amount =>
    match shrUnder shamtOver s.a amount with
    | some result => .next (s.writeReg dest result).advance
    | none => .fault (.shiftAmount amount.toNat)

/-- `shift-A` (spec/41_shift.md R68). -/
def execShiftA (v : Cell cellw) (s : State xlen cellw lenMax ipw) (shamtOver : Config.ShamtOver := Config.shamtOver) :
    Host.Outcome (State xlen cellw lenMax ipw) Fault Refusal :=
  shiftInto .a v s shamtOver

/-- `shift-B-from-A` (spec/41_shift.md R69). -/
def execShiftBFromA (v : Cell cellw) (s : State xlen cellw lenMax ipw)
    (shamtOver : Config.ShamtOver := Config.shamtOver) : Host.Outcome (State xlen cellw lenMax ipw) Fault Refusal :=
  shiftInto .b v s shamtOver

/-- `shift-C-from-A` (spec/41_shift.md R70). -/
def execShiftCFromA (v : Cell cellw) (s : State xlen cellw lenMax ipw)
    (shamtOver : Config.ShamtOver := Config.shamtOver) : Host.Outcome (State xlen cellw lenMax ipw) Fault Refusal :=
  shiftInto .c v s shamtOver

end Sys2Proof.Machine
end

