-- ==== Sys2Proof/Machine/Dispatch.lean ====
section
/-! DEFINITION. What one instruction does in a state (spec/40_execution_cycle.md R57, point 5). -/
namespace Sys2Proof.Machine

def exec (i : Instr) (s : State) : Host.Outcome State Fault Refusal :=
  match i with
  | .shiftA v => Sys2Proof.Machine.execShiftA v s
  | .xorBLiteral v => Sys2Proof.Machine.execXorBLiteral v s
  | .storeBMod8 v => Sys2Proof.Machine.execStoreBMod8 v s
  | .jumpIfANonzero v => Sys2Proof.Machine.execJumpIfANonzero v s
  | .xorBC v => Sys2Proof.Machine.execXorBC v s
  | .emit v => Sys2Proof.Machine.execEmit v s
  | .shiftBFromA v => Sys2Proof.Machine.execShiftBFromA v s
  | .shiftCFromA v => Sys2Proof.Machine.execShiftCFromA v s

end Sys2Proof.Machine
end

