-- ==== Sys2Proof/Machine/Cycle.lean ====
section
/-! DEFINITION. The cycle of the sequencer while a run is in progress (spec/40_execution_cycle.md R57), and the step of a
machine with other parameters than the decided ones (spec/00_scope.md R5). -/
namespace Sys2Proof.Machine

variable {xlen cellw lenMax ipw : Nat}

/-- The step function, in the order of its checks: the halting test, the fetch of both cells, the opcode, the
instruction, which `run` executes (spec/40_execution_cycle.md R57, R65). Nothing is done around the instruction: it writes
ip itself (R59). -/
def cycle (run : Instr cellw → State xlen cellw lenMax ipw → Host.Outcome (State xlen cellw lenMax ipw) Fault Refusal)
    (s : State xlen cellw lenMax ipw) : Host.Outcome (State xlen cellw lenMax ipw) Fault Refusal :=
  match s.fetch with
  | .pastEnd => .next s.haltEnd
  | .operandMissing => .next (s.raise .fetchOutOfRange)
  | .pair opcode operand =>
    match decodePair opcode operand with
    | .ok i => run i s
    | .error _ => .next (s.raise (.invalidOpcode opcode))

/-- `run` as the execution of an instruction, while a run is in progress: the machine has a step exactly when STATUS is
RUNNING (spec/40_execution_cycle.md R55); elsewhere it is stuck (log entry 7). -/
def cycleWhenRunning
    (run : Instr cellw → State xlen cellw lenMax ipw → Host.Outcome (State xlen cellw lenMax ipw) Fault Refusal)
    (s : State xlen cellw lenMax ipw) : Host.Outcome (State xlen cellw lenMax ipw) Fault Refusal :=
  if s.status = .running then cycle run s else .fault (.noStep s.status)

/-- What one instruction does in a machine of any parameters: the same meanings that `exec` calls for the decided ones
(spec/00_scope.md R5, spec/93_implementation_defined.md U5, U23; log entry 5). -/
def execUnder (shamtOver : Config.ShamtOver) (i : Instr cellw) (s : State xlen cellw lenMax ipw) :
    Host.Outcome (State xlen cellw lenMax ipw) Fault Refusal :=
  match i with
  | .shiftA v => execShiftA v s shamtOver
  | .xorBLiteral v => execXorBLiteral v s
  | .storeBMod8 v => execStoreBMod8 v s
  | .jumpIfANonzero v => execJumpIfANonzero v s
  | .xorBC v => execXorBC v s
  | .emit v => execEmit v s
  | .shiftBFromA v => execShiftBFromA v s shamtOver
  | .shiftCFromA v => execShiftCFromA v s shamtOver

/-- One step of a machine of any parameters, SHAMT_OVER among them (spec/00_scope.md R5; log entry 5). -/
def stepUnder (s : State xlen cellw lenMax ipw) (shamtOver : Config.ShamtOver := Config.shamtOver) :
    Host.Outcome (State xlen cellw lenMax ipw) Fault Refusal :=
  cycleWhenRunning (execUnder shamtOver) s

end Sys2Proof.Machine
end

