-- ==== Sys2Proof/Machine/Step.lean ====
section
/-! DEFINITION. The step of the sequencer (spec/40_execution_cycle.md R55 to R57, R65), and how an instruction is placed
where the next step fetches. -/
namespace Sys2Proof.Machine

/-- One step of the machine with the decided parameters (spec/40_execution_cycle.md R55 to R57); `stepUnder` is the step of
one with others. -/
def step (s : State) : Host.Outcome State Fault Refusal := cycleWhenRunning exec s

/-- The cell index at which `State.withFetchWord` places an instruction: ip, or 0 where the store has no two cells from ip
on. -/
def State.fetchPlace (s : State) : Nat := if s.ip.toNat + 1 < 256 then s.ip.toNat else 0

/-- The state in which the next step fetches and runs the table word `w`: its two cells stand at ip and ip + 1, the
program is long enough to hold them, and a run is in progress. It stands for the host's LOAD and START (log entries 1
and 8). -/
def State.withFetchWord (s : State) (nbits w : Nat) : State :=
  { s with
    prog := Memory.writeCells s.prog s.fetchPlace (tableCells nbits w)
    len := if s.len.val < s.fetchPlace + 2 then Fin.ofNat 257 (s.fetchPlace + 2) else s.len
    ip := BitVec.ofNat 9 s.fetchPlace
    status := .running }

end Sys2Proof.Machine
end

