-- ==== Sys2Proof/Machine/Assembler.lean ====
section
/-! DEFINITION. Program text and assembly text (spec/30_encoding.md R54). What the rule leaves open of the lexical form
is log entry 13. -/
namespace Sys2Proof.Machine

/-- The mnemonic of an instruction, the source's name (spec/30_encoding.md R54). -/
def mnemonic : Instr → String
  | .shiftA _ => "shift-A"
  | .xorBLiteral _ => "xor-B-literal"
  | .storeBMod8 _ => "store-B-mod8"
  | .jumpIfANonzero _ => "jump-if-A-nonzero"
  | .xorBC _ => "xor-B-C"
  | .emit _ => "emit"
  | .shiftBFromA _ => "shift-B-from-A"
  | .shiftCFromA _ => "shift-C-from-A"

/-- The shorter mnemonic of an instruction (spec/30_encoding.md R54, from general knowledge there; nothing depends on
it). -/
def shortMnemonic : Instr → String
  | .shiftA _ => "adv"
  | .xorBLiteral _ => "bxl"
  | .storeBMod8 _ => "bst"
  | .jumpIfANonzero _ => "jnz"
  | .xorBC _ => "bxc"
  | .emit _ => "out"
  | .shiftBFromA _ => "bdv"
  | .shiftCFromA _ => "cdv"

/-- The eight instructions with an operand cell, in opcode order (spec/30_encoding.md R47). -/
def instructionsWith (v : Cell) : List Instr :=
  [.shiftA v, .xorBLiteral v, .storeBMod8 v, .jumpIfANonzero v, .xorBC v, .emit v, .shiftBFromA v, .shiftCFromA v]

/-- The written form of an operand: a decimal integer, or a register letter in a combo position. -/
inductive OperandText where
  | number (n : Nat)
  | letter (r : Reg)
deriving DecidableEq, Repr

/-- The cell of a written operand in a position of some kind: 0 .. 255 anywhere; A, B, C are 4, 5, 6 in a combo position
only (spec/30_encoding.md R54). -/
def OperandText.cell : OperandText → OperandKind → Option Cell
  | .number n, _ => if n < 256 then some (BitVec.ofNat 8 n) else none
  | .letter .a, .combo => some 4
  | .letter .b, .combo => some 5
  | .letter .c, .combo => some 6
  | .letter _, .literal => none
  | .letter _, .ignored => none

/-- The instruction that a mnemonic and a written operand are (spec/30_encoding.md R54). -/
def assemblePair (name : String) (operand : OperandText) : Option Instr := do
  let row ← (instructionsWith 0).find? (fun i => mnemonic i = name || shortMnemonic i = name)
  let v ← operand.cell row.kind
  (instructionsWith v).find? (fun i => i.opcode = row.opcode)

/-- The value of a decimal digit character. -/
def digitValue (c : Char) : Option Nat :=
  if '0'.toNat ≤ c.toNat ∧ c.toNat ≤ '9'.toNat then some (c.toNat - '0'.toNat) else none

/-- The value of a decimal numeral read from the left, after a value already read. -/
def decimalFrom (acc : Nat) : List Char → Option Nat
  | [] => some acc
  | c :: cs =>
    match digitValue c with
    | some d => decimalFrom (10 * acc + d) cs
    | none => none

/-- The value of a decimal numeral of at least one digit. -/
def decimal : List Char → Option Nat
  | [] => none
  | cs => decimalFrom 0 cs

/-- A written operand. -/
def operandText : List Char → Option OperandText
  | ['A'] => some (.letter .a)
  | ['B'] => some (.letter .b)
  | ['C'] => some (.letter .c)
  | cs => (decimal cs).map .number

/-- A line without its comment, which starts with a semicolon (spec/30_encoding.md R54). -/
def dropComment (line : List Char) : List Char := line.takeWhile (fun c => c ≠ ';')

/-- Characters cut into pieces at a separator. -/
def splitAtChar (sep : Char) : List Char → List (List Char)
  | [] => [[]]
  | c :: cs =>
    if c = sep then [] :: splitAtChar sep cs
    else
      match splitAtChar sep cs with
      | piece :: pieces => (c :: piece) :: pieces
      | [] => [[c]]

/-- The words of a line: the pieces between spaces that are not empty. -/
def lineWords (line : List Char) : List (List Char) :=
  (splitAtChar ' ' (dropComment line)).filter (fun w => !w.isEmpty)

/-- One line of assembly text: nothing, or one instruction `<mnemonic> <operand>`; refused otherwise
(spec/30_encoding.md R54). -/
def assembleLine (line : List Char) : Option (List Instr) :=
  match lineWords line with
  | [] => some []
  | [name, operand] => do
    let o ← operandText operand
    let i ← assemblePair (String.ofList name) o
    some [i]
  | _ => none

/-- The instructions of lines of assembly text, in line order. -/
def assembleLines : List (List Char) → Option (List Instr)
  | [] => some []
  | line :: lines =>
    match assembleLine line, assembleLines lines with
    | some is, some js => some (is ++ js)
    | _, _ => none

/-- Assembly text to cells (spec/30_encoding.md R54). -/
def assemble (text : String) : Option (List Cell) :=
  (assembleLines (splitAtChar '\n' text.toList)).map encodeProgram

/-- An instruction as a line of assembly text, its operand in decimal (spec/30_encoding.md R54). -/
def asmLine (i : Instr) : String := mnemonic i ++ " " ++ toString i.operand.toNat

/-- A program as text: its cells in decimal, separated by commas, first cell first (spec/30_encoding.md R54). -/
def programText (cells : List Cell) : String := String.intercalate "," (cells.map (fun v => toString v.toNat))

/-- The numbers that pieces of text are, each a cell value. -/
def cellsOfPieces : List (List Char) → Option (List Cell)
  | [] => some []
  | piece :: pieces =>
    match decimal piece, cellsOfPieces pieces with
    | some n, some vs => if n < 256 then some (BitVec.ofNat 8 n :: vs) else none
    | _, _ => none

/-- The cells of a program text, the empty text being the empty program (spec/30_encoding.md R54). -/
def parseProgramText (text : String) : Option (List Cell) :=
  if text = "" then some [] else cellsOfPieces (splitAtChar ',' text.toList)

end Sys2Proof.Machine
end

