-- ==== Sys2Proof/Machine/HostPort.lean ====
section
/-! DEFINITION. The host interface: power-on, LOAD, START, READ, and what a finished run owes the host
(spec/70_reset_and_hazards.md R102 to R110, spec/40_execution_cycle.md R61). -/
namespace Sys2Proof.Machine

variable {xlen cellw lenMax ipw : Nat}

/-! ### Encodings of the fields a host sees -/

/-- The 3-bit encoding of STATUS (spec/10_state.md R19). -/
def Status.code : Status → BitVec 3
  | .idle => 0
  | .running => 1
  | .haltEnd => 2
  | .haltDiverged => 3
  | .fault => 4

/-- The 2-bit encoding of CAUSE (spec/10_state.md R20). -/
def Cause.code : Cause → BitVec 2
  | .none => 0
  | .invalidOpcode => 1
  | .invalidCombo => 2
  | .fetchOutOfRange => 3

/-- The encoding of MODE: FULL = 0, VERIFY = 1 (spec/92_eei_decisions.md D16). -/
def Mode.code : Mode → BitVec 1
  | .full => 0
  | .verify => 1

/-! ### LOAD and START -/

/-- "A complete LOAD has happened since power-on": every launch input has been supplied
(spec/70_reset_and_hazards.md R103, R107; log entry 9). -/
def Loaded.complete (l : Loaded) : Bool := l.program && l.aInit && l.bInit && l.cInit && l.mode

/-- A program as the load path can express it: at most LEN_MAX cells (spec/70_reset_and_hazards.md R104,
spec/93_implementation_defined.md U12; premise `LenFits` of spec/00_scope.md R7). -/
structure Program (cellw : Nat := 8) (lenMax : Nat := 256) where
  cells : List (Cell cellw)
  fits : cells.length < lenMax + 1
deriving DecidableEq, Repr

/-- What a LOAD hands over: any subset of the launch inputs (spec/70_reset_and_hazards.md R103). -/
structure LoadRequest (xlen : Nat := 64) (cellw : Nat := 8) (lenMax : Nat := 256) where
  program : Option (Program cellw lenMax)
  aInit : Option (Word xlen)
  bInit : Option (Word xlen)
  cInit : Option (Word xlen)
  mode : Option Mode
deriving DecidableEq, Repr

/-- The launch inputs and status fields that a LOAD writes: the named inputs, STATUS and the cleared cause and divergence
fields; "inputs not named keep their last loaded values" and A, B, C, ip and out keep theirs
(spec/70_reset_and_hazards.md R104). A new program replaces the whole store (log entry 3). -/
def State.loadInputs (s : State xlen cellw lenMax ipw) (r : LoadRequest xlen cellw lenMax) :
    State xlen cellw lenMax ipw :=
  { s with
    prog := match r.program with
      | some p => Memory.writeCells [] 0 p.cells
      | none => s.prog
    len := match r.program with
      | some p => ⟨p.cells.length, p.fits⟩
      | none => s.len
    aInit := r.aInit.getD s.aInit
    bInit := r.bInit.getD s.bInit
    cInit := r.cInit.getD s.cInit
    mode := r.mode.getD s.mode
    loaded :=
      { program := s.loaded.program || r.program.isSome
        aInit := s.loaded.aInit || r.aInit.isSome
        bInit := s.loaded.bInit || r.bInit.isSome
        cInit := s.loaded.cInit || r.cInit.isSome
        mode := s.loaded.mode || r.mode.isSome }
    status := .idle
    cause := .none
    faultIp := 0
    faultVal := 0
    divPos := 0
    divDigit := 0 }

/-- The LOAD transaction, offered only while STATUS is not RUNNING (spec/70_reset_and_hazards.md R103 to R105). -/
def hostLoad (r : LoadRequest xlen cellw lenMax) (s : State xlen cellw lenMax ipw) :
    Host.Outcome (State xlen cellw lenMax ipw) Fault Refusal :=
  if s.status = .running then .refused .hostMoveWhileRunning else .next (s.loadInputs r)

/-- The START transaction: the launch reset, offered only while STATUS is not RUNNING and after a complete LOAD
(spec/70_reset_and_hazards.md R103, R105 to R107). -/
def hostStart (s : State xlen cellw lenMax ipw) : Host.Outcome (State xlen cellw lenMax ipw) Fault Refusal :=
  if s.status = .running then .refused .hostMoveWhileRunning
  else if s.loaded.complete then .next s.launch
  else .refused .startBeforeLoad

/-- Power-on, whatever the state before: the one way to end a run that does not end (spec/70_reset_and_hazards.md R102,
R109; log entry 2). -/
def hostPowerOn (_s : State xlen cellw lenMax ipw) : Host.Outcome (State xlen cellw lenMax ipw) Fault Refusal :=
  .next State.powerOn

/-- The transactions of the host that change the state. -/
inductive HostMove (xlen : Nat := 64) (cellw : Nat := 8) (lenMax : Nat := 256) where
  | powerOn
  | load (r : LoadRequest xlen cellw lenMax)
  | start
deriving DecidableEq, Repr

/-- A host transaction, atomic with respect to the machine's steps (spec/70_reset_and_hazards.md R103). -/
def hostMove (m : HostMove xlen cellw lenMax) (s : State xlen cellw lenMax ipw) :
    Host.Outcome (State xlen cellw lenMax ipw) Fault Refusal :=
  match m with
  | .powerOn => hostPowerOn s
  | .load r => hostLoad r s
  | .start => hostStart s

/-! ### READ and the report of a run -/

/-- What a READ can ask for (spec/70_reset_and_hazards.md R108). -/
inductive ReadItem where
  | status
  | cause
  | faultIp
  | faultVal
  | divPos
  | divDigit
  | a
  | b
  | c
  | ip
  | out
deriving DecidableEq, Repr

/-- What a READ returns: an unsigned integer, or the output sequence. -/
inductive ReadValue where
  | number (n : Nat)
  | digits (ds : List Digit)
deriving DecidableEq, Repr

/-- The value of a readable item, STATUS and CAUSE in their encodings (spec/10_state.md R19, R20). -/
def State.readItem (s : State xlen cellw lenMax ipw) : ReadItem → ReadValue
  | .status => .number s.status.code.toNat
  | .cause => .number s.cause.code.toNat
  | .faultIp => .number s.faultIp.toNat
  | .faultVal => .number s.faultVal.toNat
  | .divPos => .number s.divPos.toNat
  | .divDigit => .number s.divDigit.toNat
  | .a => .number s.a.toNat
  | .b => .number s.b.toNat
  | .c => .number s.c.toNat
  | .ip => .number s.ip.toNat
  | .out => .digits s.out

/-- The READ transaction of one item: it changes nothing; while STATUS is RUNNING only STATUS may be read
(spec/70_reset_and_hazards.md R108). -/
def hostRead (item : ReadItem) (s : State xlen cellw lenMax ipw) : Except Refusal ReadValue :=
  if s.status = .running ∧ item ≠ .status then .error .readWhileRunning else .ok (s.readItem item)

/-- What a finished run owes the host (spec/40_execution_cycle.md R61, spec/70_reset_and_hazards.md R108). -/
inductive RunReport (cellw : Nat := 8) (ipw : Nat := 9) where
  /-- HALT_END: the complete output sequence -/
  | complete (out : List Digit)
  /-- HALT_DIVERGED: the matching part, and where and with what digit the run diverged -/
  | diverged (out : List Digit) (pos : CellIndex ipw) (digit : Digit)
  /-- FAULT: why, and no output sequence -/
  | aborted (cause : Cause) (faultIp : CellIndex ipw) (faultVal : Cell cellw)
deriving DecidableEq, Repr

/-- The report of a finished run; none while no run has finished (spec/40_execution_cycle.md R61). -/
def State.report (s : State xlen cellw lenMax ipw) : Option (RunReport cellw ipw) :=
  match s.status with
  | .idle => none
  | .running => none
  | .haltEnd => some (.complete s.out)
  | .haltDiverged => some (.diverged s.out s.divPos s.divDigit)
  | .fault => some (.aborted s.cause s.faultIp s.faultVal)

/-- The output sequence a run returns; a faulted run has none (spec/40_execution_cycle.md R61,
spec/93_implementation_defined.md U20). -/
def State.result (s : State xlen cellw lenMax ipw) : Option (List Digit) :=
  match s.report with
  | some (.complete out) => some out
  | some (.diverged out _ _) => some out
  | some (.aborted _ _ _) => none
  | none => none

/-- The quine test of a VERIFY run that has ended: HALT_END with as many digits as the program has cells
(spec/44_emit.md R85). -/
def State.quine (s : State xlen cellw lenMax ipw) : Bool := s.status = .haltEnd && s.out.length = s.len.val

end Sys2Proof.Machine
end

