-- ==== Sys2Proof/Safety.lean ====
section
/-! DEFINITION. The terms in which claims about VM3 are made: the premises of a launch, what a combo cell means, the
invariants of a state, and runs. Nothing here is part of the machine. -/
namespace Sys2Proof.Safety

open Sys2Proof.Machine

/-! ### Premises of a launch (spec/00_scope.md R6, R7) -/

/-- PROG[i] as a number. -/
def cellAt (s : State) (i : Nat) : Nat := (Memory.read s.prog i).toNat

/-- `LenEven` (R7). -/
def LenEven (s : State) : Prop := s.len.val % 2 = 0

/-- `LenFits` (R7). -/
def LenFits (s : State) : Prop := s.len.val ≤ 256

/-- `OpcodesValid` (R6 b). -/
def OpcodesValid (s : State) : Prop := ∀ i, i < s.len.val → i % 2 = 0 → cellAt s i ≤ 7

/-- The opcodes with a combo operand (spec/30_encoding.md R44). -/
def ComboOpcode (n : Nat) : Prop := n = 0 ∨ n = 2 ∨ n = 5 ∨ n = 6 ∨ n = 7

/-- `CombosValid` (R6 c). -/
def CombosValid (s : State) : Prop :=
  ∀ i, i < s.len.val → i % 2 = 0 → ComboOpcode (cellAt s i) → cellAt s (i + 1) ≤ 6

/-- `Idle` (R7): the host may load or launch. -/
def Idle (s : State) : Prop := s.status ≠ .running

/-- The program of a state is well-formed (R6). -/
def WellFormedProgram (s : State) : Prop := LenEven s ∧ OpcodesValid s ∧ CombosValid s

/-- The program jumps only to even targets (spec/92_eei_decisions.md D9: "every jump literal in PROG is even"). -/
def EvenJumps (s : State) : Prop :=
  ∀ i, i < s.len.val → i % 2 = 0 → cellAt s i = 3 → cellAt s (i + 1) % 2 = 0

/-! ### What operands mean -/

/-- `x` is the value of the combo cell `v`: 0 to 3 their own value, 4, 5, 6 the registers A, B, C
(spec/30_encoding.md R45). No value for another cell. -/
def ComboIs (s : State) (v : Cell) (x : Word) : Prop :=
  (v.toNat ≤ 3 ∧ x.toNat = v.toNat) ∨ (v.toNat = 4 ∧ x = s.a) ∨ (v.toNat = 5 ∧ x = s.b) ∨ (v.toNat = 6 ∧ x = s.c)

/-- `s` after the fault entry with a cause and a recorded cell: these four fields and nothing else (spec/60_exceptions.md R90). -/
def faulted (s : State) (cause : Cause) (value : Cell) : State :=
  { s with cause := cause, faultIp := s.ip, faultVal := value, status := .fault }

/-- The VERIFY comparator turns down the digit `x mod 8`: there is no cell at position |out|, or it is not the digit
(spec/44_emit.md R83). -/
def TurnedDown (s : State) (x : Word) : Prop :=
  s.mode = .verify ∧ (s.len.val ≤ s.out.length ∨ cellAt s s.out.length ≠ x.toNat % 8)

/-- A run is in progress and both cells of the instruction at ip lie inside the program
(spec/40_execution_cycle.md R57, checks 1 and 2 passed). -/
def Fetches (s : State) : Prop := s.status = .running ∧ s.ip.toNat + 1 < s.len.val

/-- The opcode cell at ip, as a number. -/
def opcodeAt (s : State) : Nat := cellAt s s.ip.toNat

/-- The operand cell at ip + 1. -/
def operandAt (s : State) : Cell := Memory.read s.prog (s.ip.toNat + 1)

/-! ### Invariants of a state -/

/-- Every digit emitted equals the program cell at its position, and there are no more digits than cells: out is where
the program begins (spec/44_emit.md R85). -/
def OutMatches (s : State) : Prop :=
  s.out.length ≤ s.len.val ∧ ∀ j d, s.out[j]? = some d → cellAt s j = d.toNat

/-- In a VERIFY run, and after it, out is where the program begins (spec/44_emit.md R85). A LOAD may change the program
or MODE under an old out, so nothing is said of STATUS = IDLE. -/
def VerifyInv (s : State) : Prop := s.mode = .verify → s.status ≠ .idle → OutMatches s

/-- CAUSE is non-zero exactly when STATUS = FAULT, and the information fields hold 0 outside the status that writes them
(spec/10_state.md R20; the zeros at power-on are the model's, log entry 2). -/
def CauseInv (s : State) : Prop :=
  (s.cause ≠ .none ↔ s.status = .fault) ∧
  (s.status ≠ .fault → s.faultIp = 0 ∧ s.faultVal = 0) ∧
  (s.status ≠ .haltDiverged → s.divPos = 0 ∧ s.divDigit = 0)

/-- After a fault, FAULT_IP is ip (spec/10_state.md R20). -/
def FaultIpInv (s : State) : Prop := s.status = .fault → s.faultIp = s.ip

/-- ip never exceeds LEN_MAX, so that it never wraps (spec/10_state.md R15; at power-on the model's ip of 0, log
entry 2). -/
def IpInv (s : State) : Prop := s.ip.toNat ≤ 256

/-- A run has happened only after a complete LOAD (spec/70_reset_and_hazards.md R103, R107). -/
def LoadedInv (s : State) : Prop := s.status ≠ .idle → s.loaded.complete = true

/-- The invariant of the block: the store is in canonical form, and all of the above. -/
def Inv (s : State) : Prop :=
  Memory.wf s.prog = true ∧ CauseInv s ∧ FaultIpInv s ∧ IpInv s ∧ LoadedInv s ∧ VerifyInv s

/-- The number of significant bits, `bl(v)` (spec/10_state.md R12). -/
def significantBits (v : Nat) : Nat := if v = 0 then 0 else v.log2 + 1

/-! ### Runs -/

/-- `n` steps lead from `s` to `t` (spec/40_execution_cycle.md R61). A stopped machine has no step, so every state before
the last is RUNNING. -/
def Runs : Nat → State → State → Prop
  | 0, s, t => s = t
  | n + 1, s, t => ∃ u, step s = .next u ∧ Runs n u t

/-- A run is over (spec/40_execution_cycle.md R61). -/
def Finished (s : State) : Prop := s.status = .haltEnd ∨ s.status = .haltDiverged ∨ s.status = .fault

/-- How many of the first `n` steps complete an instruction, that is, leave the run in progress
(spec/70_reset_and_hazards.md R113). -/
def completions : Nat → State → Nat
  | 0, _ => 0
  | n + 1, s =>
    match step s with
    | .next t => (if t.status = .running then 1 else 0) + completions n t
    | .fault _ => 0
    | .refused _ => 0

/-- The states the block can be in: from power-on, by any host transactions the model offers and any steps. -/
inductive Reachable : State → Prop where
  | powerOn : Reachable State.reset
  | host (m : HostMove) (s t : State) : Reachable s → hostMove m s = .next t → Reachable t
  | step (s t : State) : Reachable s → step s = .next t → Reachable t

/-- Two states that a program cannot tell apart: all is equal but what no step reads, the cells from LEN on, the initial
values and what has been loaded (spec/20_memory.md R34, spec/40_execution_cycle.md R62). -/
def SameForStep (s t : State) : Prop :=
  (∀ i, i < s.len.val → Memory.read s.prog i = Memory.read t.prog i) ∧
  t = { s with prog := t.prog, aInit := t.aInit, bInit := t.bInit, cInit := t.cInit, loaded := t.loaded }

/-- The same state with another MODE. -/
def withMode (s : State) (m : Mode) : State := { s with mode := m }

end Sys2Proof.Safety
end

