-- ==== Sys2Proof/Certificates/Slice0/Obligations.lean ====
section
/-! DEFINITION. The statements for the provers. Each docstring names the rule of spec/ it formalises, or says that it is
derived. -/

open Sys2Proof Sys2Proof.Machine Sys2Proof.Safety

/-! ### Encoding -/

/-- Decoding what an instruction is encoded as gives it back with the cells after it, for every instruction and operand;
and cells that decode to an instruction are its encoding and no other. Derived from spec/30_encoding.md sections 1 to 3. -/
def Obligations.DecodeEncodeAgree : Prop :=
  (∀ (i : Instr) (rest : List Cell), decode (encode i ++ rest) = .ok (i, rest)) ∧
  (∀ (cells : List Cell) (i : Instr) (rest : List Cell), decode cells = .ok (i, rest) → cells = encode i ++ rest)

/-- One word of each instruction, from the encodings of spec/95_test_vectors.md, decodes to it; a word with opcode cell 8
is refused. Derived: that the word's bits 15:8 are the first cell is log entry 1. -/
def Obligations.KnownWordsDecode : Prop :=
  decodeTableWord 16 0x0003 = some (.shiftA 3) ∧ decodeTableWord 16 0x0107 = some (.xorBLiteral 7) ∧
  decodeTableWord 16 0x0206 = some (.storeBMod8 6) ∧ decodeTableWord 16 0x0300 = some (.jumpIfANonzero 0) ∧
  decodeTableWord 16 0x04FF = some (.xorBC 255) ∧ decodeTableWord 16 0x0504 = some (.emit 4) ∧
  decodeTableWord 16 0x0602 = some (.shiftBFromA 2) ∧ decodeTableWord 16 0x0705 = some (.shiftCFromA 5) ∧
  decodeTableWord 16 0x0800 = none

/-- R44: the operand kind of each opcode number. -/
def Obligations.OperandKindPerOpcode : Prop :=
  ∀ (opcode operand : Cell) (i : Instr), decodePair opcode operand = .ok i →
    (i.kind = .combo ↔ opcode.toNat = 0 ∨ opcode.toNat = 2 ∨ opcode.toNat = 5 ∨ opcode.toNat = 6 ∨ opcode.toNat = 7) ∧
    (i.kind = .literal ↔ opcode.toNat = 1 ∨ opcode.toNat = 3) ∧ (i.kind = .ignored ↔ opcode.toNat = 4)

/-- The legal pairs counted per opcode cell: 256 operands for opcodes 1, 3, 4, seven for opcodes 0, 2, 5, 6, 7, none for an
opcode cell above 7. Derived from spec/95_test_vectors.md section 2.6 and spec/30_encoding.md section 3. -/
def Obligations.LegalOperandsPerOpcode : Prop :=
  ∀ opcode : Cell,
    ((List.range 256).filter (fun v =>
      match decodePair opcode (BitVec.ofNat 8 v) with
      | .ok i => i.wellFormed
      | .error _ => false)).length =
    if opcode.toNat = 1 ∨ opcode.toNat = 3 ∨ opcode.toNat = 4 then 256 else if opcode.toNat ≤ 7 then 7 else 0

/-- `decodeProgram` undoes `encodeProgram`: the cells that instructions are encoded as decode to them, and cells that decode
are the encoding of their instructions. Derived from spec/30_encoding.md sections 1 and 5. -/
def Obligations.EncodeProgramRoundTrip : Prop :=
  (∀ is : List Instr, decodeProgram (encodeProgram is) = .ok is) ∧
  (∀ (cells : List Cell) (is : List Instr), decodeProgram cells = .ok is → encodeProgram is = cells)

/-- Assembling a pair: the eight mnemonics in opcode order give the opcode numbers 0 to 7, with the strings written out, so
do the eight short ones; a number gives its cell; a register letter gives 4, 5 or 6 in a combo position. Derived from
spec/30_encoding.md section 5; the short names are general knowledge there. That a letter gives nothing elsewhere is the
model's choice (log entry 13). -/
def Obligations.AssemblerMnemonics : Prop :=
  (∀ v : Cell,
    assemblePair "shift-A" (.number v.toNat) = some (.shiftA v) ∧
    assemblePair "xor-B-literal" (.number v.toNat) = some (.xorBLiteral v) ∧
    assemblePair "store-B-mod8" (.number v.toNat) = some (.storeBMod8 v) ∧
    assemblePair "jump-if-A-nonzero" (.number v.toNat) = some (.jumpIfANonzero v) ∧
    assemblePair "xor-B-C" (.number v.toNat) = some (.xorBC v) ∧
    assemblePair "emit" (.number v.toNat) = some (.emit v) ∧
    assemblePair "shift-B-from-A" (.number v.toNat) = some (.shiftBFromA v) ∧
    assemblePair "shift-C-from-A" (.number v.toNat) = some (.shiftCFromA v)) ∧
  (∀ v : Cell,
    assemblePair "adv" (.number v.toNat) = some (.shiftA v) ∧
    assemblePair "bxl" (.number v.toNat) = some (.xorBLiteral v) ∧
    assemblePair "bst" (.number v.toNat) = some (.storeBMod8 v) ∧
    assemblePair "jnz" (.number v.toNat) = some (.jumpIfANonzero v) ∧
    assemblePair "bxc" (.number v.toNat) = some (.xorBC v) ∧
    assemblePair "out" (.number v.toNat) = some (.emit v) ∧
    assemblePair "bdv" (.number v.toNat) = some (.shiftBFromA v) ∧
    assemblePair "cdv" (.number v.toNat) = some (.shiftCFromA v)) ∧
  (∀ (opcode : Fin 8) (v : Cell), ∃ i, decodePair (BitVec.ofNat 8 opcode.val) v = .ok i ∧
    mnemonic i = ["shift-A", "xor-B-literal", "store-B-mod8", "jump-if-A-nonzero", "xor-B-C", "emit", "shift-B-from-A",
      "shift-C-from-A"][opcode.val] ∧
    shortMnemonic i = ["adv", "bxl", "bst", "jnz", "bxc", "out", "bdv", "cdv"][opcode.val]) ∧
  (∀ i : Instr, assemblePair (mnemonic i) (.number i.operand.toNat) = some i ∧
    assemblePair (shortMnemonic i) (.number i.operand.toNat) = some i) ∧
  (∀ (i : Instr) (r : Reg), (∃ j, assemblePair (mnemonic i) (.letter r) = some j) ↔ i.kind = .combo) ∧
  (∀ (i j : Instr) (r : Reg), assemblePair (mnemonic i) (.letter r) = some j →
    j.opcode = i.opcode ∧ j.operand.toNat = (match r with | .a => 4 | .b => 5 | .c => 6))

/-! ### Operands -/

/-- What a combo cell is worth: 0 to 3 themselves, 4, 5, 6 the registers A, B, C, anything else nothing. Derived from
spec/30_encoding.md section 2, where `Combo(v)` is defined. -/
def Obligations.ComboResolves : Prop :=
  ∀ (s : State) (v : Cell), (∀ x, combo s v = some x ↔ ComboIs s v x) ∧ (combo s v = none ↔ 7 ≤ v.toNat)

/-- R46: a literal is its raw value, zero-extended to the width of its use; every cell value is legal and `Literal` never
raises, so opcodes 1 and 3 complete on every operand with the run's status as it was. -/
def Obligations.LiteralIsRawValue : Prop :=
  ∀ (s : State) (v : Cell), (literalWord v : Word).toNat = v.toNat ∧ (literalTarget v : CellIndex).toNat = v.toNat ∧
    (∃ t, exec (.xorBLiteral v) s = .next t ∧ t.status = s.status ∧ t.cause = s.cause ∧ t.b = s.b ^^^ literalWord v) ∧
    (∃ t, exec (.jumpIfANonzero v) s = .next t ∧ t.status = s.status ∧ t.cause = s.cause ∧
      (s.a ≠ 0 → t.ip = literalTarget v))

/-- R51, R52, R88: opcodes 0, 2, 5, 6, 7 with an operand cell of 7 or more raise InvalidCombo, CAUSE 2, with FAULT_IP = ip and
FAULT_VAL = the operand cell, before anything is written; opcodes 1, 3, 4 never raise it. -/
def Obligations.InvalidComboRaised : Prop :=
  Cause.invalidCombo.code = 2 ∧
  (∀ (i : Instr) (s : State), ComboOpcode i.opcode.toNat → 7 ≤ i.operand.toNat →
    exec i s = .next (faulted s .invalidCombo i.operand)) ∧
  (∀ (i : Instr) (s t : State), ¬ ComboOpcode i.opcode.toNat → exec i s = .next t → t.status = s.status ∧ t.cause = s.cause)

/-- R48: the operand cell of opcode 4 is fetched, so it must lie inside the program, and is neither used nor checked. -/
def Obligations.XorBCOperandIgnored : Prop :=
  (∀ (s : State) (v w : Cell), exec (.xorBC v) s = exec (.xorBC w) s) ∧
  (∀ (s : State) (v : Cell), ∃ t, exec (.xorBC v) s = .next t ∧ t.status = s.status ∧ t.cause = s.cause) ∧
  (∀ s : State, s.status = .running → s.ip.toNat + 1 = s.len.val → opcodeAt s = 4 →
    step s = .next (faulted s .fetchOutOfRange 0))

/-! ### The shift family -/

/-- R67: `Shr(v, s)` is floor(v / 2^s) for every amount, so 0 from XLEN on; it never lengthens, shortens a positive value
when the amount is positive, keeps v for amount 0; under SHAMT_OVER = fault exactly the amounts of XLEN and more have no
result; the amounts that occur are 0 to 3 and the whole value of A, B or C. -/
def Obligations.ShrIsDivision : Prop :=
  (∀ v amount : Word, ∃ r, shr v amount = some r ∧ r.toNat = v.toNat / 2 ^ amount.toNat ∧ r.toNat ≤ v.toNat ∧
    (0 < v.toNat → 0 < amount.toNat → r.toNat < v.toNat) ∧ (64 ≤ amount.toNat → r = 0) ∧ (amount = 0 → r = v) ∧ (v = 0 → r = 0)) ∧
  (∀ v amount : Word, shrUnder .fault v amount = none ↔ 64 ≤ amount.toNat) ∧
  (∀ v amount : Word, amount.toNat < 64 → shrUnder .fault v amount = shr v amount) ∧
  (∀ (s : State) (v : Cell) (amount : Word), combo s v = some amount →
    (v.toNat ≤ 3 → amount.toNat = v.toNat) ∧ (v.toNat = 4 → amount = s.a) ∧ (v.toNat = 5 → amount = s.b) ∧
    (v.toNat = 6 → amount = s.c))

/-- R68: `shift-A`, its encoding, its result with its frame, its exception, and that nothing else writes A, which it never
increases. -/
def Obligations.ShiftAResult : Prop :=
  (∀ v : Cell, decodePair 0 v = .ok (.shiftA v)) ∧
  (∀ (s : State) (v : Cell) (x : Word), ComboIs s v x →
    exec (.shiftA v) s = .next { s with a := BitVec.ofNat 64 (s.a.toNat / 2 ^ x.toNat), ip := s.ip + 2 }) ∧
  (∀ (s : State) (v : Cell), v.toNat = 4 → exec (.shiftA v) s = .next { s with a := 0, ip := s.ip + 2 }) ∧
  (∀ (s : State) (v : Cell), 7 ≤ v.toNat → exec (.shiftA v) s = .next (faulted s .invalidCombo v)) ∧
  (∀ (i : Instr) (s t : State), exec i s = .next t → t.a ≠ s.a → (∃ v, i = .shiftA v) ∧ t.a.toNat < s.a.toNat)

/-- R69: `shift-B-from-A`, its encoding, its result with its frame (A and C untouched), and its exception. -/
def Obligations.ShiftBFromAResult : Prop :=
  (∀ v : Cell, decodePair 6 v = .ok (.shiftBFromA v)) ∧
  (∀ (s : State) (v : Cell) (x : Word), ComboIs s v x →
    exec (.shiftBFromA v) s = .next { s with b := BitVec.ofNat 64 (s.a.toNat / 2 ^ x.toNat), ip := s.ip + 2 }) ∧
  (∀ (s : State) (v : Cell), v.toNat = 4 → exec (.shiftBFromA v) s = .next { s with b := 0, ip := s.ip + 2 }) ∧
  (∀ (s : State) (v : Cell), 7 ≤ v.toNat → exec (.shiftBFromA v) s = .next (faulted s .invalidCombo v))

/-- R70: `shift-C-from-A`, its encoding, its result with its frame (A and B untouched), its exception, and that nothing else
writes C. -/
def Obligations.ShiftCFromAResult : Prop :=
  (∀ v : Cell, decodePair 7 v = .ok (.shiftCFromA v)) ∧
  (∀ (s : State) (v : Cell) (x : Word), ComboIs s v x →
    exec (.shiftCFromA v) s = .next { s with c := BitVec.ofNat 64 (s.a.toNat / 2 ^ x.toNat), ip := s.ip + 2 }) ∧
  (∀ (s : State) (v : Cell), v.toNat = 4 → exec (.shiftCFromA v) s = .next { s with c := 0, ip := s.ip + 2 }) ∧
  (∀ (s : State) (v : Cell), 7 ≤ v.toNat → exec (.shiftCFromA v) s = .next (faulted s .invalidCombo v)) ∧
  (∀ (i : Instr) (s t : State), exec i s = .next t → t.c ≠ s.c → ∃ v, i = .shiftCFromA v)

/-! ### The B-logic family -/

/-- R71: `xor-B-literal` on every operand: bit by bit, the literal in bits 7 to 0, bits 63 to 8 of B passing through; A, C and
all else but ip unchanged; twice restores B. -/
def Obligations.XorBLiteralResult : Prop :=
  (∀ v : Cell, decodePair 1 v = .ok (.xorBLiteral v)) ∧
  (∀ (s : State) (v : Cell), ∃ w : Word, exec (.xorBLiteral v) s = .next { s with b := w, ip := s.ip + 2 } ∧
    (∀ j, j < 8 → w.getLsbD j = (s.b.getLsbD j ^^ v.getLsbD j)) ∧
    (∀ j, 8 ≤ j → w.getLsbD j = s.b.getLsbD j) ∧
    exec (.xorBLiteral v) { s with b := w } = .next { s with b := s.b, ip := s.ip + 2 })

/-- R72: `store-B-mod8`, its encoding, its result with its frame, and its exception. -/
def Obligations.StoreBMod8Result : Prop :=
  (∀ v : Cell, decodePair 2 v = .ok (.storeBMod8 v)) ∧
  (∀ (s : State) (v : Cell) (x : Word), ComboIs s v x →
    exec (.storeBMod8 v) s = .next { s with b := BitVec.ofNat 64 (x.toNat % 8), ip := s.ip + 2 }) ∧
  (∀ (s : State) (v : Cell), 7 ≤ v.toNat → exec (.storeBMod8 v) s = .next (faulted s .invalidCombo v))

/-- R73: `xor-B-C` on every operand: bit by bit over all of B and C; C, A and all else but ip unchanged; no fault from the
instruction, FetchOutOfRange when its opcode cell is the last cell. -/
def Obligations.XorBCResult : Prop :=
  (∀ v : Cell, decodePair 4 v = .ok (.xorBC v)) ∧
  (∀ (s : State) (v : Cell), ∃ w : Word, exec (.xorBC v) s = .next { s with b := w, ip := s.ip + 2 } ∧
    (∀ j, w.getLsbD j = (s.b.getLsbD j ^^ s.c.getLsbD j)) ∧ (s.c = 0 → w = s.b) ∧ (s.b = s.c → w = 0)) ∧
  (∀ s : State, s.status = .running → s.ip.toNat + 1 = s.len.val → opcodeAt s = 4 →
    step s = .next (faulted s .fetchOutOfRange 0))

/-! ### Control transfer -/

/-- R75: `jump-if-A-nonzero` on every operand: taken when any bit of A is 1, to the literal and without advance; else ip + 2;
nothing but ip is written; a taken jump to ip + 2 is a fall-through, one to its own address changes nothing. -/
def Obligations.JumpResult : Prop :=
  (∀ v : Cell, decodePair 3 v = .ok (.jumpIfANonzero v)) ∧
  (∀ (s : State) (v : Cell), (∃ j, s.a.getLsbD j = true) →
    exec (.jumpIfANonzero v) s = .next { s with ip := BitVec.ofNat 9 v.toNat }) ∧
  (∀ (s : State) (v : Cell), s.a = 0 → exec (.jumpIfANonzero v) s = .next { s with ip := s.ip + 2 }) ∧
  (∀ (s : State) (v : Cell), s.ip.toNat + 2 = v.toNat → exec (.jumpIfANonzero v) s = .next { s with ip := s.ip + 2 }) ∧
  (∀ (s : State) (v : Cell), s.a ≠ 0 → v.toNat = s.ip.toNat → exec (.jumpIfANonzero v) s = .next s)

/-- R77: a taken jump to LEN or beyond is no error: ip takes the target and the next step ends the run; a taken jump to
LEN - 1 makes the next step raise FetchOutOfRange. -/
def Obligations.JumpOutsideHaltsNext : Prop :=
  ∀ s : State, Fetches s → opcodeAt s = 3 → s.a ≠ 0 →
    (s.len.val ≤ (operandAt s).toNat →
      ∃ t, step s = .next t ∧ t = { s with ip := BitVec.ofNat 9 (operandAt s).toNat } ∧
        step t = .next { t with status := .haltEnd }) ∧
    ((operandAt s).toNat + 1 = s.len.val →
      ∃ t, step s = .next t ∧ t = { s with ip := BitVec.ofNat 9 (operandAt s).toNat } ∧
        step t = .next (faulted t .fetchOutOfRange 0))

/-- R59: ip after an instruction that completes, as a number, so that the advance is shown not to wrap. -/
def Obligations.IpAfterInstruction : Prop :=
  ∀ s t : State, Fetches s → step s = .next t → t.status = .running →
    (opcodeAt s = 3 → s.a ≠ 0 → t.ip.toNat = (operandAt s).toNat) ∧
    (¬ (opcodeAt s = 3 ∧ s.a ≠ 0) → t.ip.toNat = s.ip.toNat + 2)

/-- R76: the target's parity is not checked, and ip's parity changes by a taken jump alone; at an odd ip the cells at ip and
ip + 1 are the instruction and all checks apply to them; a step at an odd ip inside an even-length program is no HALT_END,
and at LEN - 1 it raises FetchOutOfRange. -/
def Obligations.OddAlignment : Prop :=
  (∀ (s : State) (v : Cell), s.a ≠ 0 → ∃ t, exec (.jumpIfANonzero v) s = .next t ∧ t.ip.toNat = v.toNat) ∧
  (∀ s t : State, Fetches s → step s = .next t → t.status = .running → t.ip.toNat % 2 ≠ s.ip.toNat % 2 →
    opcodeAt s = 3 ∧ s.a ≠ 0 ∧ t.ip.toNat = (operandAt s).toNat) ∧
  (∀ s : State, s.status = .running → s.ip.toNat % 2 = 1 → s.len.val % 2 = 0 → s.ip.toNat < s.len.val →
    (∀ i, s.ip.toNat + 1 < s.len.val →
      decodePair (Memory.read s.prog s.ip.toNat) (operandAt s) = .ok i → step s = exec i s) ∧
    (8 ≤ opcodeAt s → s.ip.toNat + 1 < s.len.val →
      step s = .next (faulted s .invalidOpcode (Memory.read s.prog s.ip.toNat))) ∧
    (ComboOpcode (opcodeAt s) → 7 ≤ (operandAt s).toNat → s.ip.toNat + 1 < s.len.val →
      step s = .next (faulted s .invalidCombo (operandAt s))) ∧
    (s.ip.toNat + 1 = s.len.val → step s = .next (faulted s .fetchOutOfRange 0)) ∧
    (∀ t, step s = .next t → t.status ≠ .haltEnd))

/-- A taken jump to its own address repeats for ever and changes nothing: the run has a state after every number of steps.
Derived from R63 and the corner cases of R75. -/
def Obligations.SelfJumpNeverEnds : Prop :=
  ∀ s : State, Fetches s → opcodeAt s = 3 → (operandAt s).toNat = s.ip.toNat → s.a ≠ 0 → ∀ n, Runs n s s

/-! ### Emit and the modes -/

/-- R78: `emit`, its encoding, its completion in both modes with its frame, its divergence, and its exception. -/
def Obligations.EmitResult : Prop :=
  (∀ v : Cell, decodePair 5 v = .ok (.emit v)) ∧
  (∀ (s : State) (v : Cell) (x : Word), ComboIs s v x → s.mode = .full →
    exec (.emit v) s = .next { s with out := s.out ++ [BitVec.ofNat 3 (x.toNat % 8)], ip := s.ip + 2 }) ∧
  (∀ (s : State) (v : Cell) (x : Word), ComboIs s v x → s.mode = .verify → s.out.length < s.len.val →
    cellAt s s.out.length = x.toNat % 8 →
    exec (.emit v) s = .next { s with out := s.out ++ [BitVec.ofNat 3 (x.toNat % 8)], ip := s.ip + 2 }) ∧
  (∀ (s : State) (v : Cell) (x : Word), ComboIs s v x → s.mode = .verify →
    s.len.val ≤ s.out.length ∨ cellAt s s.out.length ≠ x.toNat % 8 →
    exec (.emit v) s = .next
      { s with divPos := BitVec.ofNat 9 s.out.length, divDigit := BitVec.ofNat 3 (x.toNat % 8), status := .haltDiverged }) ∧
  (∀ (s : State) (v : Cell), 7 ≤ v.toNat → exec (.emit v) s = .next (faulted s .invalidCombo v))

/-- R83: a step diverges exactly when it executes an `emit` with a valid operand in a VERIFY run and there is no PROG[k], or
PROG[k], the whole cell, is not the digit; a cell of 8 or more always diverges; a diverging digit is not appended; an
invalid operand faults in both modes. -/
def Obligations.DivergesExactlyWhen : Prop :=
  ∀ s t : State, step s = .next t →
    (t.status = .haltDiverged ↔
      Fetches s ∧ opcodeAt s = 5 ∧ ∃ x, ComboIs s (operandAt s) x ∧ TurnedDown s x) ∧
    (Fetches s → opcodeAt s = 5 → (operandAt s).toNat ≤ 6 → s.mode = .verify → 8 ≤ cellAt s s.out.length →
      t.status = .haltDiverged) ∧
    (t.status = .haltDiverged → t.out = s.out) ∧
    (Fetches s → opcodeAt s = 5 → 7 ≤ (operandAt s).toNat → t = faulted s .invalidCombo (operandAt s))

/-- R84: the state at a divergence: DIV_POS and DIV_DIGIT record position and digit, STATUS is HALT_DIVERGED, nothing else
changes, CAUSE among it; a position of at most LEN_MAX is recorded whole; the run is over. -/
def Obligations.DivergenceState : Prop :=
  ∀ s t : State, step s = .next t → t.status = .haltDiverged →
    t = { s with divPos := BitVec.ofNat 9 s.out.length, divDigit := t.divDigit, status := .haltDiverged } ∧
    (s.out.length ≤ 256 → t.divPos.toNat = s.out.length) ∧
    (∃ x, ComboIs s (operandAt s) x ∧ t.divDigit.toNat = x.toNat % 8) ∧
    ∀ u, step t ≠ .next u

/-- Each completed `emit` appends exactly its digit, every other step appends nothing, and the launch empties out. Derived
from R80. -/
def Obligations.OutputEvents : Prop :=
  (∀ s t : State, step s = .next t → Fetches s → opcodeAt s = 5 → t.status = .running →
    ∃ (d : Digit) (x : Word), t.out = s.out ++ [d] ∧ ComboIs s (operandAt s) x ∧ d.toNat = x.toNat % 8) ∧
  (∀ s t : State, step s = .next t → ¬ (Fetches s ∧ opcodeAt s = 5 ∧ t.status = .running) → t.out = s.out) ∧
  (∀ s t : State, hostStart s = .next t → t.out = [])

/-! ### Faults and the step -/

/-- R50, R87: an opcode cell of 8 or more raises InvalidOpcode, CAUSE 1, whatever the operand cell holds. -/
def Obligations.InvalidOpcodeRaised : Prop :=
  Cause.invalidOpcode.code = 1 ∧
  (∀ s : State, Fetches s → 8 ≤ opcodeAt s →
    step s = .next (faulted s .invalidOpcode (Memory.read s.prog s.ip.toNat)))

/-- R89: ip = LEN - 1 raises FetchOutOfRange, CAUSE 3, FAULT_VAL 0, whatever the cells hold; a step raises it in no other
case, so not where LEN and ip are even, and no run of a well-formed program that jumps only to even targets raises it. -/
def Obligations.FetchOutOfRangeRaised : Prop :=
  Cause.fetchOutOfRange.code = 3 ∧
  (∀ s : State, s.status = .running → s.ip.toNat + 1 = s.len.val → step s = .next (faulted s .fetchOutOfRange 0)) ∧
  (∀ s t : State, step s = .next t → s.cause = .none → t.cause = .fetchOutOfRange →
    s.ip.toNat + 1 = s.len.val ∧ (s.len.val % 2 = 1 ∨ s.ip.toNat % 2 = 1)) ∧
  (∀ (s : State) (n : Nat) (t : State), WellFormedProgram s → EvenJumps s → Runs n s.launch t →
    t.cause ≠ .fetchOutOfRange)

/-- R56: at ip >= LEN the run ends and STATUS alone changes; an empty program halts at its first step with out empty and the
registers at their launch values. -/
def Obligations.HaltAtEnd : Prop :=
  (∀ s : State, s.status = .running → s.len.val ≤ s.ip.toNat → step s = .next { s with status := .haltEnd }) ∧
  (∀ s t : State, hostStart s = .next t → s.len.val = 0 →
    ∃ u, step t = .next u ∧ u.status = .haltEnd ∧ u.out = [] ∧ u.a = s.aInit ∧ u.b = s.bInit ∧ u.c = s.cInit)

/-- R65: the order of the events of one step, highest first. -/
def Obligations.StepPriority : Prop :=
  ∀ s : State, s.status = .running →
    (s.len.val ≤ s.ip.toNat → step s = .next { s with status := .haltEnd }) ∧
    (s.ip.toNat + 1 = s.len.val → step s = .next (faulted s .fetchOutOfRange 0)) ∧
    (s.ip.toNat + 1 < s.len.val →
      (7 < opcodeAt s → step s = .next (faulted s .invalidOpcode (Memory.read s.prog s.ip.toNat))) ∧
      (ComboOpcode (opcodeAt s) → 7 ≤ (operandAt s).toNat → step s = .next (faulted s .invalidCombo (operandAt s))) ∧
      (∀ x, opcodeAt s = 5 → ComboIs s (operandAt s) x → TurnedDown s x →
        ∃ t, step s = .next t ∧ t.status = .haltDiverged ∧ t.out = s.out) ∧
      (opcodeAt s ≤ 7 → (ComboOpcode (opcodeAt s) → (operandAt s).toNat ≤ 6) →
        (∀ x, opcodeAt s = 5 → ComboIs s (operandAt s) x → ¬ TurnedDown s x) →
        ∃ t, step s = .next t ∧ t.status = .running))

/-- A step is precise: what a step that faults, halts or diverges changes, and that a step that completes touches no status
or information field. Derived from R60. -/
def Obligations.StepIsAtomic : Prop :=
  ∀ s t : State, step s = .next t →
    (t.status = .fault →
      t = { s with status := .fault, cause := t.cause, faultIp := t.faultIp, faultVal := t.faultVal }) ∧
    (t.status = .haltEnd → t = { s with status := .haltEnd }) ∧
    (t.status = .haltDiverged →
      t = { s with status := .haltDiverged, divPos := t.divPos, divDigit := t.divDigit }) ∧
    (t.status = .running → t = { s with a := t.a, b := t.b, c := t.c, ip := t.ip, out := t.out }) ∧
    t.status ≠ .idle

/-- R90: fault entry: when a step ends in FAULT, CAUSE is one of the three, FAULT_IP is ip, FAULT_VAL is the opcode cell, the
operand cell or 0 as the cause says, nothing else changes, the run has no result, and the machine has no step after it. -/
def Obligations.FaultEntry : Prop :=
  (Cause.invalidOpcode.code = 1 ∧ Cause.invalidCombo.code = 2 ∧ Cause.fetchOutOfRange.code = 3) ∧
  ∀ s t : State, step s = .next t → t.status = .fault →
    (t = faulted s .invalidOpcode (Memory.read s.prog s.ip.toNat) ∨ t = faulted s .invalidCombo (operandAt s) ∨
      t = faulted s .fetchOutOfRange 0) ∧
    t.result = none ∧ ∀ u, step t ≠ .next u

/-- The machine has a step exactly when STATUS = RUNNING. Derived from R55. -/
def Obligations.StepsExactlyWhenRunning : Prop :=
  ∀ s : State, (∃ t, step s = .next t) ↔ s.status = .running

/-- A fault is sticky: from a faulted state the machine has no step; a LOAD ends it, and a START enters a new run,
each with nothing of the fault left. Derived from R91, R104 and R22. -/
def Obligations.FaultSticky : Prop :=
  (∀ s : State, s.status = .fault → ∀ n t, Runs n s t → n = 0 ∧ t = s) ∧
  (∀ s t : State, s.status = .fault → hostStart s = .next t →
    t.status = .running ∧ t.cause = .none ∧ t.faultIp = 0 ∧ t.faultVal = 0 ∧ t.ip = 0 ∧ t.out = []) ∧
  (∀ (s : State) (r : LoadRequest), s.status = .fault → ∃ t, hostLoad r s = .next t ∧
    t.status = .idle ∧ t.cause = .none ∧ t.faultIp = 0 ∧ t.faultVal = 0)

/-- A step runs the instruction that the cells at ip and ip + 1 decode to, with nothing around it. Derived from R57. -/
def Obligations.StepRunsDecoded : Prop :=
  ∀ (s : State) (i : Instr), Fetches s →
    decodePair (Memory.read s.prog s.ip.toNat) (operandAt s) = .ok i → step s = exec i s

/-- The instruction placed for the next fetch is the one the next step runs. Derived: `withFetchWord` is the model's (log
entries 1 and 8). -/
def Obligations.FetchWordIsRun : Prop :=
  ∀ (s : State) (w : Nat) (i : Instr), Memory.wf s.prog = true → decodeTableWord 16 w = some i →
    step (s.withFetchWord 16 w) = exec i (s.withFetchWord 16 w) ∧ (s.withFetchWord 16 w).status = .running

/-! ### Frames over all instructions -/

/-- No step changes a launch input: the store cell by cell, LEN, the initial values, MODE, and what has been loaded. Derived
from R17, R18, R28. -/
def Obligations.LaunchInputsKept : Prop :=
  ∀ s t : State, step s = .next t →
    (∀ i, Memory.read t.prog i = Memory.read s.prog i) ∧ t.prog = s.prog ∧ t.len = s.len ∧ t.aInit = s.aInit ∧
    t.bInit = s.bInit ∧ t.cInit = s.cInit ∧ t.mode = s.mode ∧ t.loaded = s.loaded

/-- Which instruction writes which register, and that none writes two. Derived from the "writes" column of R10. -/
def Obligations.RegisterWriters : Prop :=
  ∀ (i : Instr) (s t : State), exec i s = .next t →
    (t.a ≠ s.a → i.opcode.toNat = 0) ∧
    (t.b ≠ s.b → i.opcode.toNat = 1 ∨ i.opcode.toNat = 2 ∨ i.opcode.toNat = 4 ∨ i.opcode.toNat = 6) ∧
    (t.c ≠ s.c → i.opcode.toNat = 7) ∧ (t.out ≠ s.out → i.opcode.toNat = 5)

/-- After an instruction no register has more significant bits than the longest of A, B, C before it and CELLW. Derived from
R12. -/
def Obligations.RegisterLengthBound : Prop :=
  ∀ (i : Instr) (s t : State), exec i s = .next t →
    let bound := max (max (significantBits s.a.toNat) (significantBits s.b.toNat)) (max (significantBits s.c.toNat) 8)
    significantBits t.a.toNat ≤ bound ∧ significantBits t.b.toNat ≤ bound ∧ significantBits t.c.toNat ≤ bound

/-- A step depends on nothing but A, B, C, ip, out, the status fields, LEN, MODE and the cells below LEN. Derived from R34
and R62. -/
def Obligations.StepDependsOnlyOn : Prop :=
  ∀ s t s' : State, SameForStep s t → step s = .next s' → ∃ t', step t = .next t' ∧ SameForStep s' t'

/-! ### Power-on, launch and the host -/

/-- What the spec gives of the power-on state, and that neither a step nor START leads on from it: STATUS = IDLE, CAUSE = 0.
Derived from R23, R55 and R107; that a machine without a step answers `noStep` is the model's (log entry 7), and so is the
refusal by name (log entry 10). -/
def Obligations.PowerOnState : Prop :=
  State.reset.status = .idle ∧ State.reset.cause.code = 0 ∧ step State.reset = .fault (.noStep .idle) ∧
  hostStart State.reset = .refused .startBeforeLoad

/-- R22: the launch reset, with everything it writes and nothing else. -/
def Obligations.LaunchReset : Prop :=
  ∀ s : State, s.status ≠ .running → s.loaded.complete = true →
    hostStart s = .next { s with a := s.aInit, b := s.bInit, c := s.cInit, ip := 0, out := [], cause := .none,
                                 faultIp := 0, faultVal := 0, divPos := 0, divDigit := 0, status := .running }

/-- No state of one run reaches the next: two states with the same launch inputs have the same launched state. Derived from
R24 and R39. -/
def Obligations.LaunchForgetsTheLastRun : Prop :=
  ∀ s t u : State, s.prog = t.prog → s.len = t.len → s.aInit = t.aInit → s.bInit = t.bInit → s.cInit = t.cInit →
    s.mode = t.mode → s.loaded = t.loaded → t.status ≠ .running → hostStart s = .next u → hostStart t = .next u

/-- R104: what LOAD writes: the named launch inputs, cell by cell, IDLE, the cleared cause and divergence fields; inputs not named
and A, B, C, ip and out keep their values. (What the model notes of having been loaded is log entry 9 and no clause here.) -/
def Obligations.LoadEffect : Prop :=
  ∀ (s : State) (r : LoadRequest), s.status ≠ .running → ∃ t, hostLoad r s = .next t ∧
    t.status = .idle ∧ t.cause = .none ∧ t.faultIp = 0 ∧ t.faultVal = 0 ∧ t.divPos = 0 ∧ t.divDigit = 0 ∧
    t.a = s.a ∧ t.b = s.b ∧ t.c = s.c ∧ t.ip = s.ip ∧ t.out = s.out ∧
    (∀ p, r.program = some p → t.len.val = p.cells.length ∧ ∀ i x, p.cells[i]? = some x → Memory.read t.prog i = x) ∧
    (r.program = none → t.len = s.len ∧ t.prog = s.prog) ∧
    (∀ w, r.aInit = some w → t.aInit = w) ∧ (r.aInit = none → t.aInit = s.aInit) ∧
    (∀ w, r.bInit = some w → t.bInit = w) ∧ (r.bInit = none → t.bInit = s.bInit) ∧
    (∀ w, r.cInit = some w → t.cInit = w) ∧ (r.cInit = none → t.cInit = s.cInit) ∧
    (∀ m, r.mode = some m → t.mode = m) ∧ (r.mode = none → t.mode = s.mode)

/-- START is offered after any sequence of LOADs from power-on exactly when together they named every launch input. Derived
from R103 and R107 (log entry 9). -/
def Obligations.StartNeedsEveryInput : Prop :=
  ∀ rs : List LoadRequest,
    (∃ t, hostStart (rs.foldl State.loadInputs State.reset) = .next t) ↔
      (∃ r ∈ rs, r.program.isSome = true) ∧ (∃ r ∈ rs, r.aInit.isSome = true) ∧ (∃ r ∈ rs, r.bInit.isSome = true) ∧
      (∃ r ∈ rs, r.cInit.isSome = true) ∧ (∃ r ∈ rs, r.mode.isSome = true)

/-- No LOAD and no START is offered during a run; power-on alone is left to the host, and leaves the model's power-on state.
Derived from R105 and R109; the refusal by name is the model's (log entry 10), so are the values at power-on (log
entry 2). -/
def Obligations.NoHostMoveWhileRunning : Prop :=
  ∀ (s : State) (m : HostMove), s.status = .running →
    (hostMove m s = .refused .hostMoveWhileRunning ↔ m ≠ .powerOn) ∧ (∀ t, hostMove m s = .next t → t = State.reset)

/-- What READ returns: any item while no run is in progress, STATUS alone during one, STATUS and CAUSE in their encodings.
Derived from R108, R19 and R20. -/
def Obligations.ReadReturns : Prop :=
  ∀ s : State,
    hostRead .status s = .ok (.number (match s.status with
      | .idle => 0 | .running => 1 | .haltEnd => 2 | .haltDiverged => 3 | .fault => 4)) ∧
    (∀ item, (∃ v, hostRead item s = .ok v) ↔ s.status ≠ .running ∨ item = .status) ∧
    (s.status ≠ .running →
      hostRead .cause s = .ok (.number (match s.cause with
        | .none => 0 | .invalidOpcode => 1 | .invalidCombo => 2 | .fetchOutOfRange => 3)) ∧
      hostRead .a s = .ok (.number s.a.toNat) ∧ hostRead .b s = .ok (.number s.b.toNat) ∧
      hostRead .c s = .ok (.number s.c.toNat) ∧ hostRead .ip s = .ok (.number s.ip.toNat) ∧
      hostRead .faultIp s = .ok (.number s.faultIp.toNat) ∧ hostRead .faultVal s = .ok (.number s.faultVal.toNat) ∧
      hostRead .divPos s = .ok (.number s.divPos.toNat) ∧ hostRead .divDigit s = .ok (.number s.divDigit.toNat) ∧
      hostRead .out s = .ok (.digits s.out))

/-- R110: clean entry: right after a LOAD of everything and a START, a run is in progress, no fault is recorded, out is empty,
ip is 0, the registers hold the loaded values, and the store holds the loaded program. -/
def Obligations.CleanEntry : Prop :=
  ∀ (s : State) (p : Program) (wa wb wc : Word) (m : Mode), s.status ≠ .running →
    ∃ l t, hostLoad ⟨some p, some wa, some wb, some wc, some m⟩ s = .next l ∧ hostStart l = .next t ∧
      t.status = .running ∧ t.cause = .none ∧ t.out = [] ∧ t.ip = 0 ∧ t.a = wa ∧ t.b = wb ∧ t.c = wc ∧ t.mode = m ∧
      t.len.val = p.cells.length ∧ (∀ i x, p.cells[i]? = some x → Memory.read t.prog i = x) ∧
      ∀ n u, Runs n t u → ∀ i, Memory.read u.prog i = Memory.read t.prog i

/-- What a run delivers: out after HALT_END and HALT_DIVERGED, with the position and digit for the latter; for FAULT the cause
fields and no output sequence; nothing while no run has finished. Derived from R61 and R108. -/
def Obligations.RunDelivers : Prop :=
  ∀ s : State,
    (s.status = .haltEnd → s.report = some (.complete s.out) ∧ s.result = some s.out) ∧
    (s.status = .haltDiverged → s.report = some (.diverged s.out s.divPos s.divDigit) ∧ s.result = some s.out) ∧
    (s.status = .fault → s.report = some (.aborted s.cause s.faultIp s.faultVal) ∧ s.result = none) ∧
    ((∃ r, s.report = some r) ↔ Finished s)

/-! ### Invariants -/

/-- Every step keeps the invariant of the block. Derived from R15, R20, R85, R103 and, for the canonical form, the model's store
(log entry 3). -/
def Obligations.StepKeepsInv : Prop :=
  ∀ s t : State, Inv s → step s = .next t → Inv t

/-- Every host transaction the model offers keeps the invariant of the block. Derived from R22, R104 and R105; what it says of
power-on rests on the model's values there (log entry 2), of LOAD on the model's store (log entry 3), of START on the flags
of what has been loaded (log entry 9). -/
def Obligations.HostMovesKeepInv : Prop :=
  ∀ (m : HostMove) (s t : State), Inv s → hostMove m s = .next t → Inv t

/-- The invariant holds at power-on. Derived; the values at power-on are the model's (log entries 2, 3 and 9). -/
def Obligations.ResetHasInv : Prop := Inv State.reset

/-- Whatever the host loads and starts and however long the block runs: CAUSE is non-zero exactly in FAULT, ip stays within
LEN_MAX, and a VERIFY run has emitted where the program begins. Derived from R15, R20 and R85; the canonical form of the
store is the model's (log entry 3), and so is ip before the first START (log entry 2). -/
def Obligations.ReachableStatesAreSound : Prop :=
  ∀ s : State, Reachable s →
    (s.cause.code ≠ 0 ↔ s.status = .fault) ∧ s.ip.toNat ≤ 256 ∧ Memory.wf s.prog = true ∧
    (s.mode = .verify → s.status ≠ .idle → OutMatches s)

/-! ### Runs -/

/-- R85: at every state of a VERIFY run out is where PROG begins, so at most LEN digits; HALT_END with |out| = LEN is
exactly the end at which the digits are the program; a divergence records its position and is no quine, at LEN among the
positions. -/
def Obligations.VerifyRunInvariant : Prop :=
  ∀ (s : State) (n : Nat) (t : State), Runs n (withMode s .verify).launch t →
    OutMatches t ∧
    (t.quine = true ↔ t.status = .haltEnd ∧ t.out.length = t.len.val ∧
      ∀ i, i < t.len.val → ∃ d, t.out[i]? = some d ∧ d.toNat = cellAt t i) ∧
    (t.status = .haltDiverged → t.divPos.toNat = t.out.length ∧ t.quine = false)

/-- The quine test: the VERIFY run ends with HALT_END and |out| = LEN exactly when the FULL run ends with HALT_END having
emitted the program itself. Derived from R85 and R86. -/
def Obligations.QuineTest : Prop :=
  ∀ s : State,
    (∃ n t, Runs n (withMode s .verify).launch t ∧ t.quine = true) ↔
    (∃ n t, Runs n (withMode s .full).launch t ∧ t.status = .haltEnd ∧ t.out.length = t.len.val ∧ OutMatches t)

/-- R86: agreement of the two modes, points (a) to (d). -/
def Obligations.ModesAgree : Prop :=
  ∀ s : State,
    (∀ n t, Runs n (withMode s .verify).launch t → t.status ≠ .haltDiverged →
      Runs n (withMode s .full).launch (withMode t .full)) ∧
    (∀ n t, Runs n (withMode s .full).launch t → t.status = .haltEnd → OutMatches t →
      Runs n (withMode s .verify).launch (withMode t .verify)) ∧
    (∀ n t, Runs n (withMode s .verify).launch t → t.status = .haltDiverged →
      t.divPos.toNat = t.out.length ∧
      ∀ m u, Runs m (withMode s .full).launch u → Finished u →
        (∃ rest, u.out = t.out ++ t.divDigit :: rest) ∧
        (cellAt t t.out.length ≠ t.divDigit.toNat ∨ t.out.length = t.len.val)) ∧
    (∀ n t, Runs n (withMode s .full).launch t → t.status = .fault →
      Runs n (withMode s .verify).launch (withMode t .verify) ∨
      ∃ m u, m ≤ n ∧ Runs m (withMode s .verify).launch u ∧ u.status = .haltDiverged)

/-- R113: the step counts: a run that is over after n steps has completed n - 1 instructions; the last step halts, faults or
diverges. -/
def Obligations.StepCount : Prop :=
  ∀ (n : Nat) (s t : State), s.status = .running → Runs n s t → Finished t → completions n s + 1 = n

/-- Where ip stands at the normal end of a run: at LEN, or at a jump target beyond it, at most 255. Derived from R64. -/
def Obligations.EndOfRunIp : Prop :=
  ∀ (n : Nat) (s t : State), Runs n s.launch t → t.status = .haltEnd →
    t.ip.toNat = t.len.val ∨ (t.len.val < t.ip.toNat ∧ t.ip.toNat ≤ 255)

/-- A well-formed program that jumps only to even targets never faults, in either mode. Derived from R6, R89 and R92. -/
def Obligations.WellFormedNeverFaults : Prop :=
  ∀ (s : State) (n : Nat) (t : State), WellFormedProgram s → EvenJumps s → Runs n s.launch t →
    t.status ≠ .fault ∧ t.ip.toNat % 2 = 0

/-! ### Parameters -/

/-- The parameters are arguments: under the decided values `stepUnder` is `step`; under any admissible values and either
SHAMT_OVER the right shift is floor division where it has a result, a step is there exactly when STATUS = RUNNING but for
the over-wide shifts of SHAMT_OVER = fault, and ip never wraps. Derived from R5, R15, R55, R59 and R67; the stop's name is
the model's (log entries 5 and 6). -/
def Obligations.AnyAdmissibleParameters : Prop :=
  (∀ s : State, stepUnder s = step s) ∧
  ∀ (xlen cellw lenMax ipw : Nat) (shamtOver : Config.ShamtOver), Config.Admissible xlen cellw lenMax ipw →
    (∀ v amount : Word xlen, shrUnder shamtOver v amount =
      if xlen ≤ amount.toNat ∧ shamtOver = .fault then none else some (BitVec.ofNat xlen (v.toNat / 2 ^ amount.toNat))) ∧
    (∀ s : State xlen cellw lenMax ipw,
      let opcode := (Memory.read s.prog s.ip.toNat).toNat
      let operand := Memory.read s.prog (s.ip.toNat + 1)
      ((∃ t, stepUnder s shamtOver = .next t) ∨ (∃ n, stepUnder s shamtOver = .fault (.shiftAmount n)) ↔
        s.status = .running) ∧
      (∀ n, stepUnder s shamtOver = .fault (.shiftAmount n) ↔
        shamtOver = .fault ∧ s.status = .running ∧ s.ip.toNat + 1 < s.len.val ∧
          (opcode = 0 ∨ opcode = 6 ∨ opcode = 7) ∧ ∃ x, combo s operand = some x ∧ xlen ≤ x.toNat ∧ x.toNat = n) ∧
      (∀ t, stepUnder s shamtOver = .next t →
        (t.status = .running → t.ip.toNat = s.ip.toNat + 2 ∨ (opcode = 3 ∧ s.a ≠ 0 ∧ t.ip.toNat = operand.toNat)) ∧
        (t.status ≠ .running → t.ip = s.ip)))
end

