-- ==== Sys2Proof/Laws/Decode.lean ====
section
/-! SUPPORT. What the decoder answers, once for every pair of cells. -/
namespace Sys2Proof

/-- The decoder answers `i` exactly for the two cells that `i` is encoded as. -/
theorem decodePair_ok_iff (opcode operand : Cell) (i : Instr) :
    decodePair opcode operand = .ok i ↔ i.opcode = opcode ∧ i.operand = operand := by
  have back : ∀ n, opcode.toNat = n → n < 256 → opcode = BitVec.ofNat 8 n := by
    intro n h _; apply BitVec.eq_of_toNat_eq; simp [← h]
  constructor
  · unfold decodePair
    split
    all_goals first
      | (intro h; cases h; exact ⟨(back _ (by assumption) (by decide)).symm, rfl⟩)
      | (intro h; cases h)
  · rintro ⟨rfl, rfl⟩; cases i <;> rfl

/-- The decoder refuses exactly the opcode cells above 7, and by their name. -/
theorem decodePair_error_iff (opcode operand : Cell) (e : DecodeError) :
    decodePair opcode operand = .error e ↔ 8 ≤ opcode.toNat ∧ e = .invalidOpcode opcode := by
  unfold decodePair
  split
  case h_9 h0 h1 h2 h3 h4 h5 h6 h7 =>
    constructor
    · intro h; cases h
      exact ⟨by simp only [imp_false] at *; omega, rfl⟩
    · rintro ⟨-, rfl⟩; rfl
  all_goals
    constructor
    · intro h; cases h
    · rintro ⟨h, -⟩; omega

/-- An opcode cell is at most 7. -/
theorem Instr.opcode_le (i : Instr) : i.opcode.toNat ≤ 7 := by cases i <;> simp [Instr.opcode]

/-- An opcode cell of at most 7 decodes. -/
theorem decodePair_ok_of_le (opcode operand : Cell) (h : opcode.toNat ≤ 7) :
    ∃ i, decodePair opcode operand = .ok i := by
  cases hd : decodePair opcode operand with
  | ok i => exact ⟨i, rfl⟩
  | error e => have := ((decodePair_error_iff _ _ _).1 hd).1; omega

end Sys2Proof
end

