-- ==== Sys2Proof/Laws/State.lean ====
section
/-! SUPPORT. One lemma per field and update of State, so that no proof unfolds a record update. -/
namespace Sys2Proof.Machine

variable {xlen cellw lenMax ipw : Nat}

/-! ### reset -/

/-- Power-on with the decided parameters is `State.reset`. -/
@[simp] theorem State.powerOn_eq_reset : (State.powerOn : State) = State.reset := rfl

/-! ### writeReg -/

@[simp] theorem State.writeReg_a (s : State xlen cellw lenMax ipw) (r : Reg) (v : Word xlen) : (s.writeReg r v).a = if r = .a then v else s.a := rfl
@[simp] theorem State.writeReg_b (s : State xlen cellw lenMax ipw) (r : Reg) (v : Word xlen) : (s.writeReg r v).b = if r = .b then v else s.b := rfl
@[simp] theorem State.writeReg_c (s : State xlen cellw lenMax ipw) (r : Reg) (v : Word xlen) : (s.writeReg r v).c = if r = .c then v else s.c := rfl
@[simp] theorem State.writeReg_ip (s : State xlen cellw lenMax ipw) (r : Reg) (v : Word xlen) : (s.writeReg r v).ip = s.ip := rfl
@[simp] theorem State.writeReg_out (s : State xlen cellw lenMax ipw) (r : Reg) (v : Word xlen) : (s.writeReg r v).out = s.out := rfl
@[simp] theorem State.writeReg_status (s : State xlen cellw lenMax ipw) (r : Reg) (v : Word xlen) : (s.writeReg r v).status = s.status := rfl
@[simp] theorem State.writeReg_cause (s : State xlen cellw lenMax ipw) (r : Reg) (v : Word xlen) : (s.writeReg r v).cause = s.cause := rfl
@[simp] theorem State.writeReg_faultIp (s : State xlen cellw lenMax ipw) (r : Reg) (v : Word xlen) : (s.writeReg r v).faultIp = s.faultIp := rfl
@[simp] theorem State.writeReg_faultVal (s : State xlen cellw lenMax ipw) (r : Reg) (v : Word xlen) : (s.writeReg r v).faultVal = s.faultVal := rfl
@[simp] theorem State.writeReg_divPos (s : State xlen cellw lenMax ipw) (r : Reg) (v : Word xlen) : (s.writeReg r v).divPos = s.divPos := rfl
@[simp] theorem State.writeReg_divDigit (s : State xlen cellw lenMax ipw) (r : Reg) (v : Word xlen) : (s.writeReg r v).divDigit = s.divDigit := rfl
@[simp] theorem State.writeReg_prog (s : State xlen cellw lenMax ipw) (r : Reg) (v : Word xlen) : (s.writeReg r v).prog = s.prog := rfl
@[simp] theorem State.writeReg_len (s : State xlen cellw lenMax ipw) (r : Reg) (v : Word xlen) : (s.writeReg r v).len = s.len := rfl
@[simp] theorem State.writeReg_aInit (s : State xlen cellw lenMax ipw) (r : Reg) (v : Word xlen) : (s.writeReg r v).aInit = s.aInit := rfl
@[simp] theorem State.writeReg_bInit (s : State xlen cellw lenMax ipw) (r : Reg) (v : Word xlen) : (s.writeReg r v).bInit = s.bInit := rfl
@[simp] theorem State.writeReg_cInit (s : State xlen cellw lenMax ipw) (r : Reg) (v : Word xlen) : (s.writeReg r v).cInit = s.cInit := rfl
@[simp] theorem State.writeReg_mode (s : State xlen cellw lenMax ipw) (r : Reg) (v : Word xlen) : (s.writeReg r v).mode = s.mode := rfl
@[simp] theorem State.writeReg_loaded (s : State xlen cellw lenMax ipw) (r : Reg) (v : Word xlen) : (s.writeReg r v).loaded = s.loaded := rfl

/-! ### advance -/

@[simp] theorem State.advance_a (s : State xlen cellw lenMax ipw) : (s.advance).a = s.a := rfl
@[simp] theorem State.advance_b (s : State xlen cellw lenMax ipw) : (s.advance).b = s.b := rfl
@[simp] theorem State.advance_c (s : State xlen cellw lenMax ipw) : (s.advance).c = s.c := rfl
@[simp] theorem State.advance_ip (s : State xlen cellw lenMax ipw) : (s.advance).ip = s.ip + 2 := rfl
@[simp] theorem State.advance_out (s : State xlen cellw lenMax ipw) : (s.advance).out = s.out := rfl
@[simp] theorem State.advance_status (s : State xlen cellw lenMax ipw) : (s.advance).status = s.status := rfl
@[simp] theorem State.advance_cause (s : State xlen cellw lenMax ipw) : (s.advance).cause = s.cause := rfl
@[simp] theorem State.advance_faultIp (s : State xlen cellw lenMax ipw) : (s.advance).faultIp = s.faultIp := rfl
@[simp] theorem State.advance_faultVal (s : State xlen cellw lenMax ipw) : (s.advance).faultVal = s.faultVal := rfl
@[simp] theorem State.advance_divPos (s : State xlen cellw lenMax ipw) : (s.advance).divPos = s.divPos := rfl
@[simp] theorem State.advance_divDigit (s : State xlen cellw lenMax ipw) : (s.advance).divDigit = s.divDigit := rfl
@[simp] theorem State.advance_prog (s : State xlen cellw lenMax ipw) : (s.advance).prog = s.prog := rfl
@[simp] theorem State.advance_len (s : State xlen cellw lenMax ipw) : (s.advance).len = s.len := rfl
@[simp] theorem State.advance_aInit (s : State xlen cellw lenMax ipw) : (s.advance).aInit = s.aInit := rfl
@[simp] theorem State.advance_bInit (s : State xlen cellw lenMax ipw) : (s.advance).bInit = s.bInit := rfl
@[simp] theorem State.advance_cInit (s : State xlen cellw lenMax ipw) : (s.advance).cInit = s.cInit := rfl
@[simp] theorem State.advance_mode (s : State xlen cellw lenMax ipw) : (s.advance).mode = s.mode := rfl
@[simp] theorem State.advance_loaded (s : State xlen cellw lenMax ipw) : (s.advance).loaded = s.loaded := rfl

/-! ### jumpTo -/

@[simp] theorem State.jumpTo_a (s : State xlen cellw lenMax ipw) (i : CellIndex ipw) : (s.jumpTo i).a = s.a := rfl
@[simp] theorem State.jumpTo_b (s : State xlen cellw lenMax ipw) (i : CellIndex ipw) : (s.jumpTo i).b = s.b := rfl
@[simp] theorem State.jumpTo_c (s : State xlen cellw lenMax ipw) (i : CellIndex ipw) : (s.jumpTo i).c = s.c := rfl
@[simp] theorem State.jumpTo_ip (s : State xlen cellw lenMax ipw) (i : CellIndex ipw) : (s.jumpTo i).ip = i := rfl
@[simp] theorem State.jumpTo_out (s : State xlen cellw lenMax ipw) (i : CellIndex ipw) : (s.jumpTo i).out = s.out := rfl
@[simp] theorem State.jumpTo_status (s : State xlen cellw lenMax ipw) (i : CellIndex ipw) : (s.jumpTo i).status = s.status := rfl
@[simp] theorem State.jumpTo_cause (s : State xlen cellw lenMax ipw) (i : CellIndex ipw) : (s.jumpTo i).cause = s.cause := rfl
@[simp] theorem State.jumpTo_faultIp (s : State xlen cellw lenMax ipw) (i : CellIndex ipw) : (s.jumpTo i).faultIp = s.faultIp := rfl
@[simp] theorem State.jumpTo_faultVal (s : State xlen cellw lenMax ipw) (i : CellIndex ipw) : (s.jumpTo i).faultVal = s.faultVal := rfl
@[simp] theorem State.jumpTo_divPos (s : State xlen cellw lenMax ipw) (i : CellIndex ipw) : (s.jumpTo i).divPos = s.divPos := rfl
@[simp] theorem State.jumpTo_divDigit (s : State xlen cellw lenMax ipw) (i : CellIndex ipw) : (s.jumpTo i).divDigit = s.divDigit := rfl
@[simp] theorem State.jumpTo_prog (s : State xlen cellw lenMax ipw) (i : CellIndex ipw) : (s.jumpTo i).prog = s.prog := rfl
@[simp] theorem State.jumpTo_len (s : State xlen cellw lenMax ipw) (i : CellIndex ipw) : (s.jumpTo i).len = s.len := rfl
@[simp] theorem State.jumpTo_aInit (s : State xlen cellw lenMax ipw) (i : CellIndex ipw) : (s.jumpTo i).aInit = s.aInit := rfl
@[simp] theorem State.jumpTo_bInit (s : State xlen cellw lenMax ipw) (i : CellIndex ipw) : (s.jumpTo i).bInit = s.bInit := rfl
@[simp] theorem State.jumpTo_cInit (s : State xlen cellw lenMax ipw) (i : CellIndex ipw) : (s.jumpTo i).cInit = s.cInit := rfl
@[simp] theorem State.jumpTo_mode (s : State xlen cellw lenMax ipw) (i : CellIndex ipw) : (s.jumpTo i).mode = s.mode := rfl
@[simp] theorem State.jumpTo_loaded (s : State xlen cellw lenMax ipw) (i : CellIndex ipw) : (s.jumpTo i).loaded = s.loaded := rfl

/-! ### append -/

@[simp] theorem State.append_a (s : State xlen cellw lenMax ipw) (d : Digit) : (s.append d).a = s.a := rfl
@[simp] theorem State.append_b (s : State xlen cellw lenMax ipw) (d : Digit) : (s.append d).b = s.b := rfl
@[simp] theorem State.append_c (s : State xlen cellw lenMax ipw) (d : Digit) : (s.append d).c = s.c := rfl
@[simp] theorem State.append_ip (s : State xlen cellw lenMax ipw) (d : Digit) : (s.append d).ip = s.ip := rfl
@[simp] theorem State.append_out (s : State xlen cellw lenMax ipw) (d : Digit) : (s.append d).out = s.out ++ [d] := rfl
@[simp] theorem State.append_status (s : State xlen cellw lenMax ipw) (d : Digit) : (s.append d).status = s.status := rfl
@[simp] theorem State.append_cause (s : State xlen cellw lenMax ipw) (d : Digit) : (s.append d).cause = s.cause := rfl
@[simp] theorem State.append_faultIp (s : State xlen cellw lenMax ipw) (d : Digit) : (s.append d).faultIp = s.faultIp := rfl
@[simp] theorem State.append_faultVal (s : State xlen cellw lenMax ipw) (d : Digit) : (s.append d).faultVal = s.faultVal := rfl
@[simp] theorem State.append_divPos (s : State xlen cellw lenMax ipw) (d : Digit) : (s.append d).divPos = s.divPos := rfl
@[simp] theorem State.append_divDigit (s : State xlen cellw lenMax ipw) (d : Digit) : (s.append d).divDigit = s.divDigit := rfl
@[simp] theorem State.append_prog (s : State xlen cellw lenMax ipw) (d : Digit) : (s.append d).prog = s.prog := rfl
@[simp] theorem State.append_len (s : State xlen cellw lenMax ipw) (d : Digit) : (s.append d).len = s.len := rfl
@[simp] theorem State.append_aInit (s : State xlen cellw lenMax ipw) (d : Digit) : (s.append d).aInit = s.aInit := rfl
@[simp] theorem State.append_bInit (s : State xlen cellw lenMax ipw) (d : Digit) : (s.append d).bInit = s.bInit := rfl
@[simp] theorem State.append_cInit (s : State xlen cellw lenMax ipw) (d : Digit) : (s.append d).cInit = s.cInit := rfl
@[simp] theorem State.append_mode (s : State xlen cellw lenMax ipw) (d : Digit) : (s.append d).mode = s.mode := rfl
@[simp] theorem State.append_loaded (s : State xlen cellw lenMax ipw) (d : Digit) : (s.append d).loaded = s.loaded := rfl

/-! ### raise -/

@[simp] theorem State.raise_a (s : State xlen cellw lenMax ipw) (t : Trap cellw) : (s.raise t).a = s.a := rfl
@[simp] theorem State.raise_b (s : State xlen cellw lenMax ipw) (t : Trap cellw) : (s.raise t).b = s.b := rfl
@[simp] theorem State.raise_c (s : State xlen cellw lenMax ipw) (t : Trap cellw) : (s.raise t).c = s.c := rfl
@[simp] theorem State.raise_ip (s : State xlen cellw lenMax ipw) (t : Trap cellw) : (s.raise t).ip = s.ip := rfl
@[simp] theorem State.raise_out (s : State xlen cellw lenMax ipw) (t : Trap cellw) : (s.raise t).out = s.out := rfl
@[simp] theorem State.raise_status (s : State xlen cellw lenMax ipw) (t : Trap cellw) : (s.raise t).status = .fault := rfl
@[simp] theorem State.raise_cause (s : State xlen cellw lenMax ipw) (t : Trap cellw) : (s.raise t).cause = t.cause := rfl
@[simp] theorem State.raise_faultIp (s : State xlen cellw lenMax ipw) (t : Trap cellw) : (s.raise t).faultIp = s.ip := rfl
@[simp] theorem State.raise_faultVal (s : State xlen cellw lenMax ipw) (t : Trap cellw) : (s.raise t).faultVal = t.value := rfl
@[simp] theorem State.raise_divPos (s : State xlen cellw lenMax ipw) (t : Trap cellw) : (s.raise t).divPos = s.divPos := rfl
@[simp] theorem State.raise_divDigit (s : State xlen cellw lenMax ipw) (t : Trap cellw) : (s.raise t).divDigit = s.divDigit := rfl
@[simp] theorem State.raise_prog (s : State xlen cellw lenMax ipw) (t : Trap cellw) : (s.raise t).prog = s.prog := rfl
@[simp] theorem State.raise_len (s : State xlen cellw lenMax ipw) (t : Trap cellw) : (s.raise t).len = s.len := rfl
@[simp] theorem State.raise_aInit (s : State xlen cellw lenMax ipw) (t : Trap cellw) : (s.raise t).aInit = s.aInit := rfl
@[simp] theorem State.raise_bInit (s : State xlen cellw lenMax ipw) (t : Trap cellw) : (s.raise t).bInit = s.bInit := rfl
@[simp] theorem State.raise_cInit (s : State xlen cellw lenMax ipw) (t : Trap cellw) : (s.raise t).cInit = s.cInit := rfl
@[simp] theorem State.raise_mode (s : State xlen cellw lenMax ipw) (t : Trap cellw) : (s.raise t).mode = s.mode := rfl
@[simp] theorem State.raise_loaded (s : State xlen cellw lenMax ipw) (t : Trap cellw) : (s.raise t).loaded = s.loaded := rfl

/-! ### haltEnd -/

@[simp] theorem State.haltEnd_a (s : State xlen cellw lenMax ipw) : (s.haltEnd).a = s.a := rfl
@[simp] theorem State.haltEnd_b (s : State xlen cellw lenMax ipw) : (s.haltEnd).b = s.b := rfl
@[simp] theorem State.haltEnd_c (s : State xlen cellw lenMax ipw) : (s.haltEnd).c = s.c := rfl
@[simp] theorem State.haltEnd_ip (s : State xlen cellw lenMax ipw) : (s.haltEnd).ip = s.ip := rfl
@[simp] theorem State.haltEnd_out (s : State xlen cellw lenMax ipw) : (s.haltEnd).out = s.out := rfl
@[simp] theorem State.haltEnd_status (s : State xlen cellw lenMax ipw) : (s.haltEnd).status = .haltEnd := rfl
@[simp] theorem State.haltEnd_cause (s : State xlen cellw lenMax ipw) : (s.haltEnd).cause = s.cause := rfl
@[simp] theorem State.haltEnd_faultIp (s : State xlen cellw lenMax ipw) : (s.haltEnd).faultIp = s.faultIp := rfl
@[simp] theorem State.haltEnd_faultVal (s : State xlen cellw lenMax ipw) : (s.haltEnd).faultVal = s.faultVal := rfl
@[simp] theorem State.haltEnd_divPos (s : State xlen cellw lenMax ipw) : (s.haltEnd).divPos = s.divPos := rfl
@[simp] theorem State.haltEnd_divDigit (s : State xlen cellw lenMax ipw) : (s.haltEnd).divDigit = s.divDigit := rfl
@[simp] theorem State.haltEnd_prog (s : State xlen cellw lenMax ipw) : (s.haltEnd).prog = s.prog := rfl
@[simp] theorem State.haltEnd_len (s : State xlen cellw lenMax ipw) : (s.haltEnd).len = s.len := rfl
@[simp] theorem State.haltEnd_aInit (s : State xlen cellw lenMax ipw) : (s.haltEnd).aInit = s.aInit := rfl
@[simp] theorem State.haltEnd_bInit (s : State xlen cellw lenMax ipw) : (s.haltEnd).bInit = s.bInit := rfl
@[simp] theorem State.haltEnd_cInit (s : State xlen cellw lenMax ipw) : (s.haltEnd).cInit = s.cInit := rfl
@[simp] theorem State.haltEnd_mode (s : State xlen cellw lenMax ipw) : (s.haltEnd).mode = s.mode := rfl
@[simp] theorem State.haltEnd_loaded (s : State xlen cellw lenMax ipw) : (s.haltEnd).loaded = s.loaded := rfl

/-! ### diverge -/

@[simp] theorem State.diverge_a (s : State xlen cellw lenMax ipw) (d : Digit) : (s.diverge d).a = s.a := rfl
@[simp] theorem State.diverge_b (s : State xlen cellw lenMax ipw) (d : Digit) : (s.diverge d).b = s.b := rfl
@[simp] theorem State.diverge_c (s : State xlen cellw lenMax ipw) (d : Digit) : (s.diverge d).c = s.c := rfl
@[simp] theorem State.diverge_ip (s : State xlen cellw lenMax ipw) (d : Digit) : (s.diverge d).ip = s.ip := rfl
@[simp] theorem State.diverge_out (s : State xlen cellw lenMax ipw) (d : Digit) : (s.diverge d).out = s.out := rfl
@[simp] theorem State.diverge_status (s : State xlen cellw lenMax ipw) (d : Digit) : (s.diverge d).status = .haltDiverged := rfl
@[simp] theorem State.diverge_cause (s : State xlen cellw lenMax ipw) (d : Digit) : (s.diverge d).cause = s.cause := rfl
@[simp] theorem State.diverge_faultIp (s : State xlen cellw lenMax ipw) (d : Digit) : (s.diverge d).faultIp = s.faultIp := rfl
@[simp] theorem State.diverge_faultVal (s : State xlen cellw lenMax ipw) (d : Digit) : (s.diverge d).faultVal = s.faultVal := rfl
@[simp] theorem State.diverge_divPos (s : State xlen cellw lenMax ipw) (d : Digit) : (s.diverge d).divPos = BitVec.ofNat ipw s.out.length := rfl
@[simp] theorem State.diverge_divDigit (s : State xlen cellw lenMax ipw) (d : Digit) : (s.diverge d).divDigit = d := rfl
@[simp] theorem State.diverge_prog (s : State xlen cellw lenMax ipw) (d : Digit) : (s.diverge d).prog = s.prog := rfl
@[simp] theorem State.diverge_len (s : State xlen cellw lenMax ipw) (d : Digit) : (s.diverge d).len = s.len := rfl
@[simp] theorem State.diverge_aInit (s : State xlen cellw lenMax ipw) (d : Digit) : (s.diverge d).aInit = s.aInit := rfl
@[simp] theorem State.diverge_bInit (s : State xlen cellw lenMax ipw) (d : Digit) : (s.diverge d).bInit = s.bInit := rfl
@[simp] theorem State.diverge_cInit (s : State xlen cellw lenMax ipw) (d : Digit) : (s.diverge d).cInit = s.cInit := rfl
@[simp] theorem State.diverge_mode (s : State xlen cellw lenMax ipw) (d : Digit) : (s.diverge d).mode = s.mode := rfl
@[simp] theorem State.diverge_loaded (s : State xlen cellw lenMax ipw) (d : Digit) : (s.diverge d).loaded = s.loaded := rfl

/-! ### launch -/

@[simp] theorem State.launch_a (s : State xlen cellw lenMax ipw) : (s.launch).a = s.aInit := rfl
@[simp] theorem State.launch_b (s : State xlen cellw lenMax ipw) : (s.launch).b = s.bInit := rfl
@[simp] theorem State.launch_c (s : State xlen cellw lenMax ipw) : (s.launch).c = s.cInit := rfl
@[simp] theorem State.launch_ip (s : State xlen cellw lenMax ipw) : (s.launch).ip = 0 := rfl
@[simp] theorem State.launch_out (s : State xlen cellw lenMax ipw) : (s.launch).out = [] := rfl
@[simp] theorem State.launch_status (s : State xlen cellw lenMax ipw) : (s.launch).status = .running := rfl
@[simp] theorem State.launch_cause (s : State xlen cellw lenMax ipw) : (s.launch).cause = .none := rfl
@[simp] theorem State.launch_faultIp (s : State xlen cellw lenMax ipw) : (s.launch).faultIp = 0 := rfl
@[simp] theorem State.launch_faultVal (s : State xlen cellw lenMax ipw) : (s.launch).faultVal = 0 := rfl
@[simp] theorem State.launch_divPos (s : State xlen cellw lenMax ipw) : (s.launch).divPos = 0 := rfl
@[simp] theorem State.launch_divDigit (s : State xlen cellw lenMax ipw) : (s.launch).divDigit = 0 := rfl
@[simp] theorem State.launch_prog (s : State xlen cellw lenMax ipw) : (s.launch).prog = s.prog := rfl
@[simp] theorem State.launch_len (s : State xlen cellw lenMax ipw) : (s.launch).len = s.len := rfl
@[simp] theorem State.launch_aInit (s : State xlen cellw lenMax ipw) : (s.launch).aInit = s.aInit := rfl
@[simp] theorem State.launch_bInit (s : State xlen cellw lenMax ipw) : (s.launch).bInit = s.bInit := rfl
@[simp] theorem State.launch_cInit (s : State xlen cellw lenMax ipw) : (s.launch).cInit = s.cInit := rfl
@[simp] theorem State.launch_mode (s : State xlen cellw lenMax ipw) : (s.launch).mode = s.mode := rfl
@[simp] theorem State.launch_loaded (s : State xlen cellw lenMax ipw) : (s.launch).loaded = s.loaded := rfl

/-! ### loadInputs -/

@[simp] theorem State.loadInputs_a (s : State xlen cellw lenMax ipw) (r : LoadRequest xlen cellw lenMax) : (s.loadInputs r).a = s.a := rfl
@[simp] theorem State.loadInputs_b (s : State xlen cellw lenMax ipw) (r : LoadRequest xlen cellw lenMax) : (s.loadInputs r).b = s.b := rfl
@[simp] theorem State.loadInputs_c (s : State xlen cellw lenMax ipw) (r : LoadRequest xlen cellw lenMax) : (s.loadInputs r).c = s.c := rfl
@[simp] theorem State.loadInputs_ip (s : State xlen cellw lenMax ipw) (r : LoadRequest xlen cellw lenMax) : (s.loadInputs r).ip = s.ip := rfl
@[simp] theorem State.loadInputs_out (s : State xlen cellw lenMax ipw) (r : LoadRequest xlen cellw lenMax) : (s.loadInputs r).out = s.out := rfl
@[simp] theorem State.loadInputs_status (s : State xlen cellw lenMax ipw) (r : LoadRequest xlen cellw lenMax) : (s.loadInputs r).status = .idle := rfl
@[simp] theorem State.loadInputs_cause (s : State xlen cellw lenMax ipw) (r : LoadRequest xlen cellw lenMax) : (s.loadInputs r).cause = .none := rfl
@[simp] theorem State.loadInputs_faultIp (s : State xlen cellw lenMax ipw) (r : LoadRequest xlen cellw lenMax) : (s.loadInputs r).faultIp = 0 := rfl
@[simp] theorem State.loadInputs_faultVal (s : State xlen cellw lenMax ipw) (r : LoadRequest xlen cellw lenMax) : (s.loadInputs r).faultVal = 0 := rfl
@[simp] theorem State.loadInputs_divPos (s : State xlen cellw lenMax ipw) (r : LoadRequest xlen cellw lenMax) : (s.loadInputs r).divPos = 0 := rfl
@[simp] theorem State.loadInputs_divDigit (s : State xlen cellw lenMax ipw) (r : LoadRequest xlen cellw lenMax) : (s.loadInputs r).divDigit = 0 := rfl
@[simp] theorem State.loadInputs_aInit (s : State xlen cellw lenMax ipw) (r : LoadRequest xlen cellw lenMax) : (s.loadInputs r).aInit = r.aInit.getD s.aInit := rfl
@[simp] theorem State.loadInputs_bInit (s : State xlen cellw lenMax ipw) (r : LoadRequest xlen cellw lenMax) : (s.loadInputs r).bInit = r.bInit.getD s.bInit := rfl
@[simp] theorem State.loadInputs_cInit (s : State xlen cellw lenMax ipw) (r : LoadRequest xlen cellw lenMax) : (s.loadInputs r).cInit = r.cInit.getD s.cInit := rfl
@[simp] theorem State.loadInputs_mode (s : State xlen cellw lenMax ipw) (r : LoadRequest xlen cellw lenMax) : (s.loadInputs r).mode = r.mode.getD s.mode := rfl

/-- A LOAD with a program replaces the store by its cells. -/
theorem State.loadInputs_prog_some (s : State xlen cellw lenMax ipw) (r : LoadRequest xlen cellw lenMax) (p : Program cellw lenMax) (h : r.program = some p) :
    (s.loadInputs r).prog = Memory.writeCells [] 0 p.cells := by
  simp [State.loadInputs, h]

/-- A LOAD with a program sets LEN to its length. -/
theorem State.loadInputs_len_some (s : State xlen cellw lenMax ipw) (r : LoadRequest xlen cellw lenMax) (p : Program cellw lenMax) (h : r.program = some p) :
    (s.loadInputs r).len.val = p.cells.length := by
  simp [State.loadInputs, h]

/-- A LOAD without a program leaves the store and LEN. -/
theorem State.loadInputs_prog_none (s : State xlen cellw lenMax ipw) (r : LoadRequest xlen cellw lenMax) (h : r.program = none) :
    (s.loadInputs r).prog = s.prog ∧ (s.loadInputs r).len = s.len := by
  simp [State.loadInputs, h]

/-! ### Reading a register back -/

@[simp] theorem State.readReg_writeReg (s : State xlen cellw lenMax ipw) (r q : Reg) (v : Word xlen) :
    (s.writeReg r v).readReg q = if r = q then v else s.readReg q := by
  cases r <;> cases q <;> rfl

end Sys2Proof.Machine
end

