-- ==== Sys2Proof/Laws/Word.lean ====
section
/-! SUPPORT. The default widths are the parameters' decided values, these meet the spec's constraints, and the numeric
values of the word operations. -/
namespace Sys2Proof

variable {xlen cellw lenMax ipw : Nat}

/-- The numerals of `Sys2Proof/Word.lean` are the parameters of `Sys2Proof/Config.lean`. -/
theorem word_widths : Word = Word Config.xlen ∧ Cell = Cell Config.cellw ∧ CellIndex = CellIndex Config.ipw ∧
    ProgLen = ProgLen Config.lenMax := ⟨rfl, rfl, rfl, rfl⟩

/-- The state of the decided machine is the state of the parameters in `Sys2Proof/Config.lean`, and its program store is a
list of the host's cells. -/
theorem state_parameters : Machine.State = Machine.State Config.xlen Config.cellw Config.lenMax Config.ipw ∧
    Machine.Memory = List Host.Cell := ⟨rfl, rfl⟩

/-- The decided values meet the constraints between the parameters (spec/00_scope.md R5). -/
theorem config_admissible : Config.Admissible Config.xlen Config.cellw Config.lenMax Config.ipw := by
  constructor <;> decide

/-- A cell holds every number up to 15, where the parameters are admissible. -/
theorem Config.Admissible.sixteen_le (h : Config.Admissible xlen cellw lenMax ipw) : 16 ≤ 2 ^ cellw :=
  Nat.pow_le_pow_right (n := 2) (by decide) h.cell_holds_invalid_opcode

/-- `x mod 8` is the remainder of the unsigned value. -/
@[simp] theorem Word.mod8_toNat (x : Word xlen) : x.mod8.toNat = x.toNat % 8 := by simp [Word.mod8]

/-- A digit keeps its value as a cell. -/
@[simp] theorem Digit.toCell_toNat (d : Digit) : (d.toCell : Cell).toNat = d.toNat := by
  simp [Digit.toCell]; omega

end Sys2Proof
end

