-- ==== Sys2Proof/Laws/Exec.lean ====
section
/-! SUPPORT. What operand resolution, the shared operations and each meaning can do, said once. -/
namespace Sys2Proof.Machine

variable {xlen cellw lenMax ipw : Nat}

/-! ### Operands -/

/-- A combo cell has no value exactly when it is 7 or more. -/
theorem combo_eq_none_iff (s : State xlen cellw lenMax ipw) (v : Cell cellw) : combo s v = none ↔ 7 ≤ v.toNat := by
  unfold combo comboSource
  split <;> simp <;> first | omega | skip
  simp only [imp_false] at *; omega

/-- A combo cell of 0 to 3 is its own value. -/
theorem combo_small (s : State xlen cellw lenMax ipw) (v : Cell cellw) (h : v.toNat ≤ 3) : combo s v = some (v.setWidth xlen) := by
  unfold combo comboSource
  split <;> first | rfl | omega | skip
  simp only [imp_false] at *; omega

theorem combo_a (s : State xlen cellw lenMax ipw) (v : Cell cellw) (h : v.toNat = 4) : combo s v = some s.a := by
  simp [combo, comboSource, h, ComboSource.eval, State.readReg]

theorem combo_b (s : State xlen cellw lenMax ipw) (v : Cell cellw) (h : v.toNat = 5) : combo s v = some s.b := by
  simp [combo, comboSource, h, ComboSource.eval, State.readReg]

theorem combo_c (s : State xlen cellw lenMax ipw) (v : Cell cellw) (h : v.toNat = 6) : combo s v = some s.c := by
  simp [combo, comboSource, h, ComboSource.eval, State.readReg]

/-- An instruction with a combo operand either goes on with its value or raises InvalidCombo. -/
theorem withCombo_cases (s : State xlen cellw lenMax ipw) (v : Cell cellw) (body : Word xlen → Host.Outcome (State xlen cellw lenMax ipw) Fault Refusal) :
    (∃ x, combo s v = some x ∧ withCombo s v body = body x) ∨
    (7 ≤ v.toNat ∧ withCombo s v body = .next (s.raise (.invalidCombo v))) := by
  unfold withCombo
  cases h : combo s v with
  | some x => exact .inl ⟨x, rfl, rfl⟩
  | none => exact .inr ⟨(combo_eq_none_iff s v).1 h, rfl⟩

/-! ### The right shift -/

/-- A right shift has the zero-filling result, or, under SHAMT_OVER = fault and for an amount of XLEN or more, none. -/
theorem shrUnder_cases (shamtOver : Config.ShamtOver) (v amount : Word xlen) :
    ((amount.toNat < xlen ∨ shamtOver = .zero) ∧ shrUnder shamtOver v amount = some (v >>> amount.toNat)) ∨
    (shamtOver = .fault ∧ xlen ≤ amount.toNat ∧ shrUnder shamtOver v amount = none) := by
  unfold shrUnder
  by_cases h : amount.toNat < xlen
  · simp [h]
  · have : v >>> amount.toNat = 0 := by
      apply BitVec.eq_of_toNat_eq
      simp only [BitVec.toNat_ushiftRight, Nat.shiftRight_eq_div_pow]
      exact Nat.div_eq_of_lt (Nat.lt_of_lt_of_le v.isLt (Nat.pow_le_pow_right (by decide) (by omega)))
    cases shamtOver <;> simp [h, this]; omega

/-- Under the decided SHAMT_OVER every right shift has a result, and it is the zero-filling one. -/
@[simp] theorem shrUnder_decided (v amount : Word xlen) :
    shrUnder Config.shamtOver v amount = some (v >>> amount.toNat) := by
  rcases shrUnder_cases Config.shamtOver v amount with ⟨_, h⟩ | ⟨h, _⟩
  · exact h
  · cases h

theorem shr_eq (v amount : Word xlen) : shr v amount = some (v >>> amount.toNat) := shrUnder_decided v amount

/-- A shift writes A shifted right by its combo operand into its destination and advances, or raises InvalidCombo, or,
under SHAMT_OVER = fault and for an amount of XLEN or more, stops the model. -/
theorem shiftInto_under_cases (dest : Reg) (v : Cell cellw) (s : State xlen cellw lenMax ipw)
    (shamtOver : Config.ShamtOver) :
    (∃ x, combo s v = some x ∧ (x.toNat < xlen ∨ shamtOver = .zero) ∧
      shiftInto dest v s shamtOver = .next (s.writeReg dest (s.a >>> x.toNat)).advance) ∨
    (∃ x, combo s v = some x ∧ shamtOver = .fault ∧ xlen ≤ x.toNat ∧
      shiftInto dest v s shamtOver = .fault (.shiftAmount x.toNat)) ∨
    (7 ≤ v.toNat ∧ shiftInto dest v s shamtOver = .next (s.raise (.invalidCombo v))) := by
  unfold shiftInto
  rcases withCombo_cases s v _ with ⟨x, hx, h⟩ | h
  · rcases shrUnder_cases shamtOver s.a x with ⟨hz, hs⟩ | ⟨hf, hl, hs⟩
    · exact .inl ⟨x, hx, hz, by rw [h]; simp only [hs]⟩
    · exact .inr (.inl ⟨x, hx, hf, hl, by rw [h]; simp only [hs]⟩)
  · exact .inr (.inr h)

/-- Under the decided SHAMT_OVER a shift writes its result and advances, or raises InvalidCombo. -/
theorem shiftInto_cases (dest : Reg) (v : Cell cellw) (s : State xlen cellw lenMax ipw) :
    (∃ x, combo s v = some x ∧ shiftInto dest v s = .next (s.writeReg dest (s.a >>> x.toNat)).advance) ∨
    (7 ≤ v.toNat ∧ shiftInto dest v s = .next (s.raise (.invalidCombo v))) := by
  rcases shiftInto_under_cases dest v s Config.shamtOver with ⟨x, hx, _, h⟩ | ⟨_, _, h, _⟩ | h
  · exact .inl ⟨x, hx, h⟩
  · cases h
  · exact .inr h

/-! ### One lemma per meaning -/

theorem execStoreBMod8_cases (v : Cell cellw) (s : State xlen cellw lenMax ipw) :
    (∃ x, combo s v = some x ∧ execStoreBMod8 v s = .next (s.writeReg .b (x.mod8.setWidth xlen)).advance) ∨
    (7 ≤ v.toNat ∧ execStoreBMod8 v s = .next (s.raise (.invalidCombo v))) :=
  withCombo_cases s v _

theorem execEmit_cases (v : Cell cellw) (s : State xlen cellw lenMax ipw) :
    (∃ x, combo s v = some x ∧ s.diverges x.mod8 = true ∧ execEmit v s = .next (s.diverge x.mod8)) ∨
    (∃ x, combo s v = some x ∧ s.diverges x.mod8 = false ∧ execEmit v s = .next (s.append x.mod8).advance) ∨
    (7 ≤ v.toNat ∧ execEmit v s = .next (s.raise (.invalidCombo v))) := by
  unfold execEmit
  rcases withCombo_cases s v _ with ⟨x, hx, h⟩ | h
  · cases hd : s.diverges x.mod8
    · exact .inr (.inl ⟨x, hx, hd, by rw [h]; simp [hd]⟩)
    · exact .inl ⟨x, hx, hd, by rw [h]; simp [hd]⟩
  · exact .inr (.inr h)

theorem execJumpIfANonzero_cases (v : Cell cellw) (s : State xlen cellw lenMax ipw) :
    (s.a ≠ 0 ∧ execJumpIfANonzero v s = .next (s.jumpTo (literalTarget v))) ∨
    (s.a = 0 ∧ execJumpIfANonzero v s = .next s.advance) := by
  unfold execJumpIfANonzero State.aNonzero
  by_cases h : s.a = 0
  · exact .inr ⟨h, if_neg (by simp [h])⟩
  · exact .inl ⟨h, if_pos (by simpa using h)⟩

/-- The VERIFY comparator, spelled out. -/
theorem State.diverges_iff (s : State xlen cellw lenMax ipw) (d : Digit) :
    s.diverges d = true ↔ s.mode = .verify ∧
      (s.len.val ≤ s.out.length ∨ Memory.read s.prog s.out.length ≠ d.toCell) := by
  unfold State.diverges State.memRead
  cases s.mode <;> by_cases h : s.out.length < s.len.val <;> simp [h] <;> omega

/-! ### Everything one instruction can do -/

/-- The kinds of state an instruction can lead to: a register written and ip advanced, a jump, a digit appended, a
divergence, or InvalidCombo. -/
theorem exec_cases (i : Instr) (s : State) :
    (∃ r w, exec i s = .next (s.writeReg r w).advance ∧
      ((∃ v x, r = .a ∧ i = .shiftA v ∧ combo s v = some x ∧ w = s.a >>> x.toNat) ∨
       (∃ v, r = .b ∧ i = .xorBLiteral v ∧ w = s.b ^^^ literalWord v) ∨
       (∃ v x, r = .b ∧ i = .storeBMod8 v ∧ combo s v = some x ∧ w = x.mod8.setWidth 64) ∨
       (∃ v, r = .b ∧ i = .xorBC v ∧ w = s.b ^^^ s.c) ∨
       (∃ v x, r = .b ∧ i = .shiftBFromA v ∧ combo s v = some x ∧ w = s.a >>> x.toNat) ∨
       (∃ v x, r = .c ∧ i = .shiftCFromA v ∧ combo s v = some x ∧ w = s.a >>> x.toNat))) ∨
    (∃ v, i = .jumpIfANonzero v ∧ s.a ≠ 0 ∧ exec i s = .next (s.jumpTo (literalTarget v))) ∨
    (∃ v, i = .jumpIfANonzero v ∧ s.a = 0 ∧ exec i s = .next s.advance) ∨
    (∃ v x, i = .emit v ∧ combo s v = some x ∧ s.diverges x.mod8 = true ∧
      exec i s = .next (s.diverge x.mod8)) ∨
    (∃ v x, i = .emit v ∧ combo s v = some x ∧ s.diverges x.mod8 = false ∧
      exec i s = .next (s.append x.mod8).advance) ∨
    (i.kind = .combo ∧ 7 ≤ i.operand.toNat ∧ exec i s = .next (s.raise (.invalidCombo i.operand))) := by
  cases i with
  | shiftA v =>
    rcases shiftInto_cases .a v s with ⟨x, hx, h⟩ | ⟨hv, h⟩
    · exact .inl ⟨.a, _, h, .inl ⟨v, x, rfl, rfl, hx, rfl⟩⟩
    · exact .inr (.inr (.inr (.inr (.inr ⟨rfl, hv, h⟩))))
  | xorBLiteral v => exact .inl ⟨.b, _, rfl, .inr (.inl ⟨v, rfl, rfl, rfl⟩)⟩
  | storeBMod8 v =>
    rcases execStoreBMod8_cases v s with ⟨x, hx, h⟩ | ⟨hv, h⟩
    · exact .inl ⟨.b, _, h, .inr (.inr (.inl ⟨v, x, rfl, rfl, hx, rfl⟩))⟩
    · exact .inr (.inr (.inr (.inr (.inr ⟨rfl, hv, h⟩))))
  | jumpIfANonzero v =>
    rcases execJumpIfANonzero_cases v s with ⟨ha, h⟩ | ⟨ha, h⟩
    · exact .inr (.inl ⟨v, rfl, ha, h⟩)
    · exact .inr (.inr (.inl ⟨v, rfl, ha, h⟩))
  | xorBC v => exact .inl ⟨.b, _, rfl, .inr (.inr (.inr (.inl ⟨v, rfl, rfl, rfl⟩)))⟩
  | emit v =>
    rcases execEmit_cases v s with ⟨x, hx, hd, h⟩ | ⟨x, hx, hd, h⟩ | ⟨hv, h⟩
    · exact .inr (.inr (.inr (.inl ⟨v, x, rfl, hx, hd, h⟩)))
    · exact .inr (.inr (.inr (.inr (.inl ⟨v, x, rfl, hx, hd, h⟩))))
    · exact .inr (.inr (.inr (.inr (.inr ⟨rfl, hv, h⟩))))
  | shiftBFromA v =>
    rcases shiftInto_cases .b v s with ⟨x, hx, h⟩ | ⟨hv, h⟩
    · exact .inl ⟨.b, _, h, .inr (.inr (.inr (.inr (.inl ⟨v, x, rfl, rfl, hx, rfl⟩))))⟩
    · exact .inr (.inr (.inr (.inr (.inr ⟨rfl, hv, h⟩))))
  | shiftCFromA v =>
    rcases shiftInto_cases .c v s with ⟨x, hx, h⟩ | ⟨hv, h⟩
    · exact .inl ⟨.c, _, h, .inr (.inr (.inr (.inr (.inr ⟨v, x, rfl, rfl, hx, rfl⟩))))⟩
    · exact .inr (.inr (.inr (.inr (.inr ⟨rfl, hv, h⟩))))

end Sys2Proof.Machine
end

