-- ==== Sys2Proof/Laws/Memory.lean ====
section
/-! SUPPORT. The program store: a read after a write, and that every operation keeps the canonical form. -/
namespace Sys2Proof.Machine

variable {xlen cellw lenMax ipw : Nat}

/-- Below the first address of a canonical store everything reads as unlisted. -/
theorem Memory.read_below (m : Memory cellw) (low i : Nat) (hm : Memory.wfFrom low m lenMax = true) (hi : i < low) :
    Memory.read m i = Memory.unlisted := by
  induction m generalizing low with
  | nil => rfl
  | cons e m ih =>
    obtain ⟨k, x⟩ := e
    simp only [Memory.wfFrom, Bool.and_eq_true, decide_eq_true_eq] at hm
    have hk : ¬ i = k := by omega
    simpa [Memory.read, hk] using ih (k + 1) hm.2 (by omega)

/-- A write keeps the canonical form from any lower bound of its address. -/
theorem Memory.wfFrom_write (m : Memory cellw) (low i : Nat) (x : Cell cellw) (hm : Memory.wfFrom low m lenMax = true) (hl : low ≤ i)
    (hi : i < lenMax) : Memory.wfFrom low (Memory.write m i x) lenMax = true := by
  induction m generalizing low with
  | nil =>
    by_cases hx : x = Memory.unlisted <;> simp [Memory.write, Memory.wfFrom, hx, hl, hi]
  | cons e m ih =>
    obtain ⟨k, y⟩ := e
    simp only [Memory.wfFrom, Bool.and_eq_true, decide_eq_true_eq, ne_eq] at hm
    obtain ⟨⟨⟨h1, h2⟩, h3⟩, h4⟩ := hm
    have weaken : ∀ (m : Memory cellw) (p q : Nat), p ≤ q → Memory.wfFrom q m lenMax = true → Memory.wfFrom p m lenMax = true := by
      intro m p q hpq h
      cases m with
      | nil => rfl
      | cons e m =>
        simp only [Memory.wfFrom, Bool.and_eq_true, decide_eq_true_eq] at h ⊢
        exact ⟨⟨⟨by omega, h.1.1.2⟩, h.1.2⟩, h.2⟩
    simp only [Memory.write]
    by_cases hik : i < k
    · by_cases hx : x = Memory.unlisted
      · simp [hik, hx, Memory.wfFrom, h1, h2, h3, h4]
      · simp [hik, hx, Memory.wfFrom, hl, hi, h2, h3, h4] <;> omega
    · by_cases hek : i = k
      · subst hek
        by_cases hx : x = Memory.unlisted
        · simpa [hx] using weaken m low (i + 1) (by omega) h4
        · simp [hx, Memory.wfFrom, hl, hi, h4]
      · simp [hik, hek, Memory.wfFrom, h1, h2, h3, ih (k + 1) h4 (by omega)]

/-- A write inside the store keeps its canonical form. -/
theorem Memory.wf_write (m : Memory cellw) (i : Nat) (x : Cell cellw) (hm : Memory.wf m lenMax = true) (hi : i < lenMax) :
    Memory.wf (Memory.write m i x) lenMax = true :=
  Memory.wfFrom_write m 0 i x hm (Nat.zero_le i) hi

/-- A read after a write gives the value written, and every other cell reads as before. -/
theorem Memory.read_write (m : Memory cellw) (low i j : Nat) (x : Cell cellw) (hm : Memory.wfFrom low m lenMax = true) :
    Memory.read (Memory.write m i x) j = if j = i then x else Memory.read m j := by
  induction m generalizing low with
  | nil =>
    by_cases hx : x = Memory.unlisted <;> by_cases hj : j = i <;> simp [Memory.write, Memory.read, hx, hj]
  | cons e m ih =>
    obtain ⟨k, y⟩ := e
    simp only [Memory.wfFrom, Bool.and_eq_true, decide_eq_true_eq] at hm
    have below : ∀ i, i ≤ k → Memory.read m i = Memory.unlisted :=
      fun i hi => Memory.read_below m (k + 1) i hm.2 (by omega)
    simp only [Memory.write]
    by_cases hik : i < k
    · by_cases hx : x = Memory.unlisted
      · by_cases hj : j = i
        · subst hj
          have : ¬ j = k := by omega
          simp [hik, hx, Memory.read, this, below j (by omega)]
        · simp [hik, hx, hj]
      · simp [hik, hx, Memory.read]
    · by_cases hek : i = k
      · subst hek
        by_cases hx : x = Memory.unlisted
        · by_cases hj : j = i
          · subst hj; simp [hx, below j (by omega)]
          · simp [hx, hj, Memory.read]
        · by_cases hj : j = i <;> simp [hx, hj, Memory.read]
      · by_cases hj : j = k
        · have : ¬ j = i := by omega
          have h' : ¬ k = i := by omega
          simp [hik, hek, Memory.read, hj, h']
        · simp [hik, hek, Memory.read, hj, ih (k + 1) hm.2]

/-- Writing consecutive cells inside the store keeps its canonical form. -/
theorem Memory.wf_writeCells (m : Memory cellw) (i : Nat) (xs : List (Cell cellw)) (hm : Memory.wf m lenMax = true)
    (hi : i + xs.length ≤ lenMax) : Memory.wf (Memory.writeCells m i xs) lenMax = true := by
  induction xs generalizing m i with
  | nil => exact hm
  | cons x xs ih =>
    simp only [List.length_cons] at hi
    exact ih _ (i + 1) (Memory.wf_write m i x hm (by omega)) (by omega)

/-- After writing consecutive cells, those cells read as written and every other cell as before. -/
theorem Memory.read_writeCells (m : Memory cellw) (i j : Nat) (xs : List (Cell cellw)) (hm : Memory.wf m lenMax = true)
    (hi : i + xs.length ≤ lenMax) :
    Memory.read (Memory.writeCells m i xs) j = if i ≤ j then (xs[j - i]?).getD (Memory.read m j) else Memory.read m j := by
  induction xs generalizing m i with
  | nil => simp [Memory.writeCells]
  | cons x xs ih =>
    simp only [List.length_cons] at hi
    rw [Memory.writeCells, ih _ (i + 1) (Memory.wf_write m i x hm (by omega)) (by omega),
      Memory.read_write m 0 i j x hm]
    by_cases h : i + 1 ≤ j
    · have h1 : j - i = (j - (i + 1)) + 1 := by omega
      have h2 : ¬ j = i := by omega
      have h3 : i ≤ j := by omega
      simp [h, h1, h2, h3]
    · by_cases h2 : j = i
      · subst h2; simp <;> (intro; omega)
      · have h3 : ¬ i ≤ j := by omega
        simp [h, h2, h3]

/-- A cell of the program is read from the store. -/
theorem State.memRead_of_lt (s : State xlen cellw lenMax ipw) (i : Nat) (h : i < s.len.val) : s.memRead i = some (Memory.read s.prog i) := by
  simp [State.memRead, h]

/-- From LEN on there is no cell. -/
theorem State.memRead_of_le (s : State xlen cellw lenMax ipw) (i : Nat) (h : s.len.val ≤ i) : s.memRead i = none := by
  simp [State.memRead, h]

end Sys2Proof.Machine
end

