-- ==== Sys2Proof/Laws/Parameters.lean ====
section
/-! SUPPORT. What an instruction and a step can do in a machine of any parameters (spec/00_scope.md R5), said once. -/
namespace Sys2Proof.Machine

variable {xlen cellw lenMax ipw : Nat}

/-- The shift instructions, opcodes 0, 6 and 7: the ones that SHAMT_OVER bears on. -/
def isShift : Instr cellw → Bool
  | .shiftA _ => true
  | .xorBLiteral _ => false
  | .storeBMod8 _ => false
  | .jumpIfANonzero _ => false
  | .xorBC _ => false
  | .emit _ => false
  | .shiftBFromA _ => true
  | .shiftCFromA _ => true

/-- With the decided parameters an instruction does what `exec` says. -/
@[simp] theorem execUnder_decided (i : Instr) (s : State) : execUnder Config.shamtOver i s = exec i s := by
  cases i <;> rfl

/-- The kinds of outcome of an instruction: a register written and ip advanced, a jump taken or not, a digit appended, a
divergence, InvalidCombo, or the stop of an over-wide shift under SHAMT_OVER = fault. -/
theorem execUnder_cases (shamtOver : Config.ShamtOver) (i : Instr cellw) (s : State xlen cellw lenMax ipw) :
    (∃ r w, execUnder shamtOver i s = .next (s.writeReg r w).advance ∧
      (isShift i = true → ∃ x, combo s i.operand = some x ∧ (x.toNat < xlen ∨ shamtOver = .zero))) ∨
    (∃ v, i = .jumpIfANonzero v ∧ s.a ≠ 0 ∧ execUnder shamtOver i s = .next (s.jumpTo (literalTarget v))) ∨
    (∃ v, i = .jumpIfANonzero v ∧ s.a = 0 ∧ execUnder shamtOver i s = .next s.advance) ∨
    (∃ v d, i = .emit v ∧ execUnder shamtOver i s = .next (s.diverge d)) ∨
    (∃ v d, i = .emit v ∧ execUnder shamtOver i s = .next (s.append d).advance) ∨
    (7 ≤ i.operand.toNat ∧ execUnder shamtOver i s = .next (s.raise (.invalidCombo i.operand))) ∨
    (∃ x, isShift i = true ∧ combo s i.operand = some x ∧ shamtOver = .fault ∧ xlen ≤ x.toNat ∧
      execUnder shamtOver i s = .fault (.shiftAmount x.toNat)) := by
  have shift : ∀ dest v, i.operand = v → isShift i = true → execUnder shamtOver i s = shiftInto dest v s shamtOver →
      (∃ r w, execUnder shamtOver i s = .next (s.writeReg r w).advance ∧
        (isShift i = true → ∃ x, combo s i.operand = some x ∧ (x.toNat < xlen ∨ shamtOver = .zero))) ∨
      (7 ≤ i.operand.toNat ∧ execUnder shamtOver i s = .next (s.raise (.invalidCombo i.operand))) ∨
      (∃ x, isShift i = true ∧ combo s i.operand = some x ∧ shamtOver = .fault ∧ xlen ≤ x.toNat ∧
        execUnder shamtOver i s = .fault (.shiftAmount x.toNat)) := by
    rintro dest v rfl hi he
    rw [he]
    rcases shiftInto_under_cases dest i.operand s shamtOver with ⟨x, hx, hz, h⟩ | ⟨x, hx, hf, hl, h⟩ | ⟨hv, h⟩
    · exact .inl ⟨dest, _, h, fun _ => ⟨x, hx, hz⟩⟩
    · exact .inr (.inr ⟨x, hi, hx, hf, hl, h⟩)
    · exact .inr (.inl ⟨hv, h⟩)
  have noShift : ∀ h : isShift i = false, isShift i = true →
      ∃ x, combo s i.operand = some x ∧ (x.toNat < xlen ∨ shamtOver = .zero) := by
    intro h h'; rw [h] at h'; cases h'
  cases i with
  | shiftA v =>
    rcases shift .a v rfl rfl rfl with h | h | h
    · exact .inl h
    · exact .inr (.inr (.inr (.inr (.inr (.inl h)))))
    · exact .inr (.inr (.inr (.inr (.inr (.inr h)))))
  | xorBLiteral v => exact .inl ⟨.b, _, rfl, noShift rfl⟩
  | storeBMod8 v =>
    rcases execStoreBMod8_cases v s with ⟨x, _, h⟩ | h
    · exact .inl ⟨.b, _, h, noShift rfl⟩
    · exact .inr (.inr (.inr (.inr (.inr (.inl h)))))
  | jumpIfANonzero v =>
    rcases execJumpIfANonzero_cases v s with ⟨ha, h⟩ | ⟨ha, h⟩
    · exact .inr (.inl ⟨v, rfl, ha, h⟩)
    · exact .inr (.inr (.inl ⟨v, rfl, ha, h⟩))
  | xorBC v => exact .inl ⟨.b, _, rfl, noShift rfl⟩
  | emit v =>
    rcases execEmit_cases v s with ⟨x, _, _, h⟩ | ⟨x, _, _, h⟩ | h
    · exact .inr (.inr (.inr (.inl ⟨v, _, rfl, h⟩)))
    · exact .inr (.inr (.inr (.inr (.inl ⟨v, _, rfl, h⟩))))
    · exact .inr (.inr (.inr (.inr (.inr (.inl h)))))
  | shiftBFromA v =>
    rcases shift .b v rfl rfl rfl with h | h | h
    · exact .inl h
    · exact .inr (.inr (.inr (.inr (.inr (.inl h)))))
    · exact .inr (.inr (.inr (.inr (.inr (.inr h)))))
  | shiftCFromA v =>
    rcases shift .c v rfl rfl rfl with h | h | h
    · exact .inl h
    · exact .inr (.inr (.inr (.inr (.inr (.inl h)))))
    · exact .inr (.inr (.inr (.inr (.inr (.inr h)))))

end Sys2Proof.Machine
end

