-- ==== Sys2Proof/Laws/PerInstr.lean ====
section
/-! SUPPORT. The family `EncodesAsPair`: one lemma per instruction. -/
namespace Sys2Proof.Laws.EncodesAsPair

/-- An instruction is encoded in exactly two cells, the first an opcode of at most 7, the second its operand
(spec/30_encoding.md R40, R41). -/
def Statement (i : Instr) : Prop := encode i = [i.opcode, i.operand] ∧ i.opcode.toNat ≤ 7

theorem shiftA (v : Cell) : Statement (.shiftA v) := ⟨rfl, by simp [Instr.opcode]⟩
theorem xorBLiteral (v : Cell) : Statement (.xorBLiteral v) := ⟨rfl, by simp [Instr.opcode]⟩
theorem storeBMod8 (v : Cell) : Statement (.storeBMod8 v) := ⟨rfl, by simp [Instr.opcode]⟩
theorem jumpIfANonzero (v : Cell) : Statement (.jumpIfANonzero v) := ⟨rfl, by simp [Instr.opcode]⟩
theorem xorBC (v : Cell) : Statement (.xorBC v) := ⟨rfl, by simp [Instr.opcode]⟩
theorem emit (v : Cell) : Statement (.emit v) := ⟨rfl, by simp [Instr.opcode]⟩
theorem shiftBFromA (v : Cell) : Statement (.shiftBFromA v) := ⟨rfl, by simp [Instr.opcode]⟩
theorem shiftCFromA (v : Cell) : Statement (.shiftCFromA v) := ⟨rfl, by simp [Instr.opcode]⟩

end Sys2Proof.Laws.EncodesAsPair
end

