-- ==== Sys2Proof/Laws/Step.lean ====
section
/-! SUPPORT. What fetching and one step can do, said once. -/
namespace Sys2Proof.Machine

variable {xlen cellw lenMax ipw : Nat}

/-- The three results of a fetch, by where ip stands. -/
theorem State.fetch_cases (s : State xlen cellw lenMax ipw) :
    (s.len.val ≤ s.ip.toNat ∧ s.fetch = .pastEnd) ∨
    (s.ip.toNat + 1 = s.len.val ∧ s.fetch = .operandMissing) ∨
    (s.ip.toNat + 1 < s.len.val ∧
      s.fetch = .pair (Memory.read s.prog s.ip.toNat) (Memory.read s.prog (s.ip.toNat + 1))) := by
  unfold State.fetch
  by_cases h : s.len.val ≤ s.ip.toNat
  · exact .inl ⟨h, by simp [s.memRead_of_le _ h]⟩
  · by_cases h1 : s.len.val ≤ s.ip.toNat + 1
    · exact .inr (.inl ⟨by omega, by simp [s.memRead_of_le _ h1, s.memRead_of_lt s.ip.toNat (by omega)]⟩)
    · exact .inr (.inr ⟨by omega, by
        simp [s.memRead_of_lt s.ip.toNat (by omega), s.memRead_of_lt (s.ip.toNat + 1) (by omega)]⟩)

/-- Everything a step can do: nothing when no run is in progress; else halt, raise FetchOutOfRange, raise InvalidOpcode,
or execute the instruction at ip. -/
theorem step_cases (s : State) :
    (s.status ≠ .running ∧ step s = .fault (.noStep s.status)) ∨
    (s.status = .running ∧
      ((s.len.val ≤ s.ip.toNat ∧ step s = .next s.haltEnd) ∨
       (s.ip.toNat + 1 = s.len.val ∧ step s = .next (s.raise .fetchOutOfRange)) ∨
       (s.ip.toNat + 1 < s.len.val ∧ 8 ≤ (Memory.read s.prog s.ip.toNat).toNat ∧
         step s = .next (s.raise (.invalidOpcode (Memory.read s.prog s.ip.toNat)))) ∨
       (s.ip.toNat + 1 < s.len.val ∧
         ∃ i, decodePair (Memory.read s.prog s.ip.toNat) (Memory.read s.prog (s.ip.toNat + 1)) = .ok i ∧
           step s = exec i s))) := by
  by_cases hs : s.status = .running
  · refine .inr ⟨hs, ?_⟩
    unfold step cycleWhenRunning cycle
    rcases s.fetch_cases with ⟨h, hf⟩ | ⟨h, hf⟩ | ⟨h, hf⟩
    · exact .inl ⟨h, by simp [hs, hf]⟩
    · exact .inr (.inl ⟨h, by simp [hs, hf]⟩)
    · cases hd : decodePair (Memory.read s.prog s.ip.toNat) (Memory.read s.prog (s.ip.toNat + 1)) with
      | ok i => exact .inr (.inr (.inr ⟨h, i, rfl, by simp [hs, hf, hd]⟩))
      | error e => exact .inr (.inr (.inl ⟨h, ((decodePair_error_iff _ _ _).1 hd).1, by simp [hs, hf, hd]⟩))
  · exact .inl ⟨hs, by simp [step, cycleWhenRunning, hs]⟩

end Sys2Proof.Machine
end

