-- ==== Sys2Proof/Laws/Safety.lean ====
section
/-! SUPPORT. What a step can do and what a run is, in the terms of `Sys2Proof/Safety.lean`. -/
namespace Sys2Proof.Safety

open Sys2Proof.Machine

/-- One more step of any machine, by what the first step answers. -/
theorem core_run_succ (M : Host.Core) (n : Nat) (s : M.State) (t : M.State) :
    M.run (n + 1) s = .next t ↔ ∃ u, M.step s = .next u ∧ M.run n u = .next t := by
  rw [Host.Core.run]
  cases M.step s <;> simp

/-- `Runs` is the host's `Host.Core.run` of this machine. -/
theorem runs_iff_core_run (n : Nat) (s t : State) : Runs n s t ↔ Host.Core.run core n s = .next t := by
  induction n generalizing s with
  | zero => exact ⟨fun h => congrArg Host.Outcome.next h, fun h => Host.Outcome.next.inj h⟩
  | succ n ih =>
    refine Iff.trans ?_ (core_run_succ core n s t).symm
    exact ⟨fun ⟨u, h1, h2⟩ => ⟨u, h1, (ih u).1 h2⟩, fun ⟨u, h1, h2⟩ => ⟨u, h1, (ih u).2 h2⟩⟩

/-- The VERIFY comparator answers as `TurnedDown` says. -/
theorem diverges_iff_turnedDown (s : State) (x : Word) : s.diverges x.mod8 = true ↔ TurnedDown s x := by
  have cells : Memory.read s.prog s.out.length = x.mod8.toCell ↔ cellAt s s.out.length = x.toNat % 8 := by
    constructor
    · intro h; simp [cellAt, h]
    · intro h; exact BitVec.eq_of_toNat_eq (by simpa [cellAt] using h)
  simp only [State.diverges_iff, TurnedDown, ne_eq, cells]

/-- The opcodes with a combo operand are those of combo kind. -/
theorem comboOpcode_iff_kind (i : Instr) : ComboOpcode i.opcode.toNat ↔ i.kind = .combo := by
  cases i <;> simp [ComboOpcode, Instr.opcode, Instr.kind]

/-- An advance from a fetched instruction does not wrap. -/
theorem advance_toNat (s : State) (h : Fetches s) : (s.ip + 2).toNat = s.ip.toNat + 2 := by
  have h1 := h.2
  have h2 := s.len.isLt
  simp; omega

/-- Everything a step that answers a next state can have done: it halted, raised one of the three faults, diverged,
appended a digit, jumped, fell through a jump, or wrote a register. -/
theorem step_next_cases (s t : State) (h : step s = .next t) :
    s.status = .running ∧
    ((s.len.val ≤ s.ip.toNat ∧ t = s.haltEnd) ∨
     (s.ip.toNat + 1 = s.len.val ∧ t = s.raise .fetchOutOfRange) ∨
     (Fetches s ∧ 8 ≤ opcodeAt s ∧ t = s.raise (.invalidOpcode (Memory.read s.prog s.ip.toNat))) ∨
     (Fetches s ∧ ComboOpcode (opcodeAt s) ∧ 7 ≤ (operandAt s).toNat ∧ t = s.raise (.invalidCombo (operandAt s))) ∨
     (Fetches s ∧ opcodeAt s = 5 ∧ ∃ x, combo s (operandAt s) = some x ∧ TurnedDown s x ∧ t = s.diverge x.mod8) ∨
     (Fetches s ∧ opcodeAt s = 5 ∧
       ∃ x, combo s (operandAt s) = some x ∧ ¬ TurnedDown s x ∧ t = (s.append x.mod8).advance) ∨
     (Fetches s ∧ opcodeAt s = 3 ∧ s.a ≠ 0 ∧ t = s.jumpTo (literalTarget (operandAt s))) ∨
     (Fetches s ∧ opcodeAt s = 3 ∧ s.a = 0 ∧ t = s.advance) ∨
     (Fetches s ∧ opcodeAt s ≤ 7 ∧ opcodeAt s ≠ 3 ∧ opcodeAt s ≠ 5 ∧
       (ComboOpcode (opcodeAt s) → (operandAt s).toNat ≤ 6) ∧ ∃ r w, t = (s.writeReg r w).advance)) := by
  rcases step_cases s with ⟨_, h1⟩ | ⟨hs, ⟨h1, h2⟩ | ⟨h1, h2⟩ | ⟨h1, h3, h2⟩ | ⟨h1, i, hi, h2⟩⟩
  · rw [h1] at h; cases h
  · rw [h2] at h; cases h; exact ⟨hs, .inl ⟨h1, rfl⟩⟩
  · rw [h2] at h; cases h; exact ⟨hs, .inr (.inl ⟨h1, rfl⟩)⟩
  · rw [h2] at h; cases h; exact ⟨hs, .inr (.inr (.inl ⟨⟨hs, h1⟩, h3, rfl⟩))⟩
  · rw [h2] at h
    obtain ⟨ho, hv⟩ := (decodePair_ok_iff _ _ _).1 hi
    have hf : Fetches s := ⟨hs, h1⟩
    have hop : opcodeAt s = i.opcode.toNat := by rw [ho]; rfl
    have hov : operandAt s = i.operand := by rw [hv]; rfl
    have le6 : ∀ v x, combo s v = some x → v.toNat ≤ 6 := by
      intro v x hx
      have : ¬ 7 ≤ v.toNat := fun h7 => by rw [(combo_eq_none_iff s v).2 h7] at hx; cases hx
      omega
    refine ⟨hs, .inr (.inr (.inr ?_))⟩
    rcases exec_cases i s with ⟨r, w, h2, hh⟩ | ⟨v, rfl, ha, h2⟩ | ⟨v, rfl, ha, h2⟩ | ⟨v, x, rfl, hx, hd, h2⟩ |
      ⟨v, x, rfl, hx, hd, h2⟩ | ⟨hk, hv7, h2⟩ <;> rw [h2] at h <;> cases h
    · have regs : i.opcode.toNat ≠ 3 ∧ i.opcode.toNat ≠ 5 ∧ (ComboOpcode i.opcode.toNat → i.operand.toNat ≤ 6) := by
        rcases hh with ⟨v, x, _, rfl, hx, _⟩ | ⟨v, _, rfl, _⟩ | ⟨v, x, _, rfl, hx, _⟩ | ⟨v, _, rfl, _⟩ |
          ⟨v, x, _, rfl, hx, _⟩ | ⟨v, x, _, rfl, hx, _⟩ <;>
          simp [ComboOpcode, Instr.opcode, Instr.operand] <;> exact le6 _ _ hx
      rw [hop, hov]
      exact .inr (.inr (.inr (.inr (.inr ⟨hf, Instr.opcode_le i, regs.1, regs.2.1, regs.2.2, r, w, rfl⟩))))
    · rw [hov]; exact .inr (.inr (.inr (.inl ⟨hf, by simp [hop, Instr.opcode], ha, rfl⟩)))
    · exact .inr (.inr (.inr (.inr (.inl ⟨hf, by simp [hop, Instr.opcode], ha, rfl⟩))))
    · rw [hov]
      exact .inr (.inl ⟨hf, by simp [hop, Instr.opcode], x, hx, (diverges_iff_turnedDown s x).1 hd, rfl⟩)
    · rw [hov]
      refine .inr (.inr (.inl ⟨hf, by simp [hop, Instr.opcode], x, hx, ?_, rfl⟩))
      rw [← diverges_iff_turnedDown, hd]; simp
    · rw [hov]; exact .inl ⟨hf, by rw [hop, comboOpcode_iff_kind]; exact hk, hv7, rfl⟩

/-- An invariant that every step keeps holds at every state of a run. -/
theorem runs_keep (P : State → Prop) (keeps : ∀ s t, P s → step s = .next t → P t) (n : Nat) (s t : State) (hs : P s)
    (h : Runs n s t) : P t := by
  induction n generalizing s with
  | zero => cases h; exact hs
  | succ n ih => obtain ⟨u, h1, h2⟩ := h; exact ih u (keeps _ _ hs h1) h2

end Sys2Proof.Safety
end

