-- ==== Sys2Proof/Tests/Slice0.lean ====
section
/-! SUPPORT. Tests against the vectors of spec/95_test_vectors.md (named in each comment), the smoke test of WellFormed, the
decoding of every constructor, and a witness for the hypotheses of every statement that has some. -/
namespace Sys2Proof.Tests

open Sys2Proof.Machine Sys2Proof.Safety

/-- The state right after a LOAD of everything and a START. -/
def launched (cells : List Cell) (a b c : Word) (mode : Mode := .full) (fits : cells.length < 257 := by decide) : State :=
  (State.reset.loadInputs ⟨some ⟨cells, fits⟩, some a, some b, some c, some mode⟩).launch

/-- One step answers a next state with a property. -/
def stepsTo (s : State) (p : State → Bool) : Bool :=
  match step s with
  | .next t => p t
  | .fault _ => false
  | .refused _ => false

/-- Some steps lead to a state with a property. -/
def runsTo : Nat → State → (State → Bool) → Bool
  | 0, s, p => p s
  | n + 1, s, p => stepsTo s (fun t => runsTo n t p)

theorem exists_of_stepsTo (s : State) (p : State → Bool) (h : stepsTo s p = true) : ∃ t, step s = .next t ∧ p t = true := by
  unfold stepsTo at h
  cases hs : step s with
  | next t => rw [hs] at h; exact ⟨t, rfl, h⟩
  | fault r => rw [hs] at h; cases h
  | refused r => rw [hs] at h; cases h

theorem exists_of_runsTo (n : Nat) (s : State) (p : State → Bool) (h : runsTo n s p = true) :
    ∃ t, Runs n s t ∧ p t = true := by
  induction n generalizing s with
  | zero => exact ⟨s, rfl, h⟩
  | succ n ih =>
    obtain ⟨u, hu, h2⟩ := exists_of_stepsTo s _ h
    obtain ⟨t, ht, h3⟩ := ih u h2
    exact ⟨t, ⟨u, hu, ht⟩, h3⟩

/-! ### WellFormed -/

/-- Every combo position refuses 7, and 255 (R51, R52); literal and ignored positions refuse nothing (R46, R48). -/
theorem test_wellFormed_refuses :
    (Instr.shiftA 7 : Instr).wellFormed = false ∧ (Instr.storeBMod8 7 : Instr).wellFormed = false ∧
    (Instr.emit 8 : Instr).wellFormed = false ∧
    (Instr.shiftBFromA 255 : Instr).wellFormed = false ∧ (Instr.shiftCFromA 7 : Instr).wellFormed = false ∧
    (Instr.shiftA 6 : Instr).wellFormed = true ∧ (Instr.xorBLiteral 255 : Instr).wellFormed = true ∧
    (Instr.jumpIfANonzero 7 : Instr).wellFormed = true ∧ (Instr.xorBC 7 : Instr).wellFormed = true := by decide

/-! ### Decoding, each word written out from the format of R41: `00000ooo vvvvvvvv` -/

theorem test_decode_shiftA : decode ([0b00000000, 0b00000011] : List Cell) = .ok (.shiftA 3, []) := rfl
theorem test_decode_xorBLiteral : decode ([0b00000001, 0b11111111] : List Cell) = .ok (.xorBLiteral 255, []) := rfl
theorem test_decode_storeBMod8 : decode ([0b00000010, 0b00000100] : List Cell) = .ok (.storeBMod8 4, []) := rfl
theorem test_decode_jumpIfANonzero : decode ([0b00000011, 0b11001000] : List Cell) = .ok (.jumpIfANonzero 200, []) := rfl
theorem test_decode_xorBC : decode ([0b00000100, 0b00000111] : List Cell) = .ok (.xorBC 7, []) := rfl
theorem test_decode_emit : decode ([0b00000101, 0b00000100, 0b00000011] : List Cell) = .ok (.emit 4, [3]) := rfl
theorem test_decode_shiftBFromA : decode ([0b00000110, 0b00000010] : List Cell) = .ok (.shiftBFromA 2, []) := rfl
theorem test_decode_shiftCFromA : decode ([0b00000111, 0b00000101] : List Cell) = .ok (.shiftCFromA 5, []) := rfl
theorem test_decode_refuses : decode ([0b00001000, 0] : List Cell) = .error (.invalidOpcode 8) ∧
    decode ([5] : List Cell) = .error .truncated ∧
    decode ([] : List Cell) = .error .truncated := ⟨rfl, rfl, rfl⟩

/-- Section 2.1 to 2.4, encodings 0x0705 and 0x04FF. -/
theorem test_decodeTableWord : decodeTableWord 16 0x0705 = some (.shiftCFromA 5) ∧
    decodeTableWord 16 0x04FF = some (.xorBC 255) ∧ decodeTableWord 16 0x0900 = none := by decide

/-! ### One step of each instruction -/

/-- Vectors S3 and S4. -/
theorem test_shiftA_amounts : stepsTo (launched [0, 5] (BitVec.ofNat 64 (2 ^ 63)) 63 0)
      (fun t => t.a = 1 && t.b = 63 && t.ip = 2) = true ∧
    stepsTo (launched [0, 5] (BitVec.ofNat 64 (2 ^ 63)) 64 0) (fun t => t.a = 0) = true := by decide
/-- Vectors S13: combo 7. -/
theorem test_shiftA_combo7 : stepsTo (launched [0, 7] 77 0 0)
    (fun t => t.status = .fault && t.cause = .invalidCombo && t.faultIp = 0 && t.faultVal = 7 && t.a = 77 && t.ip = 0) =
    true := by decide
/-- Vectors S8 and S9. -/
theorem test_shiftBFromA : stepsTo (launched [6, 6] (BitVec.allOnes 64) 0 63) (fun t => t.b = 1) = true ∧
    stepsTo (launched [6, 5] 240 2 0) (fun t => t.b = 60 && t.a = 240) = true := by decide
/-- Vectors S11, S12 and S15. -/
theorem test_shiftCFromA : stepsTo (launched [7, 1] (BitVec.allOnes 64) 0 0) (fun t => t.c = 9223372036854775807) = true ∧
    stepsTo (launched [7, 6] 1024 0 10) (fun t => t.c = 1) = true ∧
    stepsTo (launched [7, 255] 1 0 0) (fun t => t.cause = .invalidCombo && t.faultVal = 255) = true := by decide
/-- Vectors B1 and B4. -/
theorem test_xorBLiteral : stepsTo (launched [1, 7] 0 29 0) (fun t => t.b = 26 && t.ip = 2) = true ∧
    stepsTo (launched [1, 255] 0 4660 0) (fun t => t.b = 4811) = true := by decide
/-- Vectors B6, B7 and B9. -/
theorem test_storeBMod8 : stepsTo (launched [2, 4] (BitVec.allOnes 64) 9 0) (fun t => t.b = 7) = true ∧
    stepsTo (launched [2, 5] 0 13 0) (fun t => t.b = 5) = true ∧
    stepsTo (launched [2, 7] 0 13 0) (fun t => t.cause = .invalidCombo && t.b = 13) = true := by decide
/-- Vectors B10, B12 and B14. -/
theorem test_xorBC : stepsTo (launched [4, 0] 0 2024 43690) (fun t => t.b = 44354) = true ∧
    stepsTo (launched [4, 0] 0 (BitVec.allOnes 64) 1) (fun t => t.b = 18446744073709551614) = true ∧
    stepsTo (launched [4, 255] 0 5 3) (fun t => t.b = 6 && t.status = .running) = true := by decide
/-- Vectors J1, J5 and J6. -/
theorem test_jumpIfANonzero : stepsTo (launched [3, 0] 0 0 0) (fun t => t.ip = 2) = true ∧
    stepsTo (launched [3, 200] 5 0 0) (fun t => t.ip = 200 && t.status = .running) = true ∧
    stepsTo (launched [3, 7] 1 0 0) (fun t => t.ip = 7) = true := by decide
/-- Vectors E2, E3 and E5. -/
theorem test_emit_full : stepsTo (launched [5, 4] (BitVec.allOnes 64) 0 0)
      (fun t => t.out = [7] && t.a = BitVec.allOnes 64 && t.ip = 2) = true ∧
    stepsTo (launched [5, 6] 0 0 8) (fun t => t.out = [0]) = true ∧
    stepsTo (launched [5, 8] 0 0 0) (fun t => t.cause = .invalidCombo && t.faultVal = 8 && t.out = []) = true := by decide
/-- Vectors E6, E7 and E13. -/
theorem test_emit_verify : stepsTo (launched [5, 5] 0 5 0 .verify) (fun t => t.out = [5] && t.status = .running) = true ∧
    stepsTo (launched [5, 0] 0 0 0 .verify)
      (fun t => t.status = .haltDiverged && t.divPos = 0 && t.divDigit = 0 && t.out = [] && t.ip = 0 && t.cause = .none) =
      true ∧
    stepsTo (launched [5, 7] 0 0 0 .verify) (fun t => t.cause = .invalidCombo && t.faultVal = 7) = true := by decide

/-! ### The step -/

/-- Vectors F1, F2, F5 and J8 (its second step, from a state with ip = LEN - 1). -/
theorem test_step_checks : stepsTo (launched [] 1 2 3) (fun t => t.status = .haltEnd && t.a = 1 && t.ip = 0) = true ∧
    stepsTo (launched [5] 0 0 0) (fun t => t.cause = .fetchOutOfRange && t.faultVal = 0) = true ∧
    stepsTo (launched [9, 7] 0 0 0) (fun t => t.cause = .invalidOpcode && t.faultVal = 9) = true ∧
    stepsTo ((launched [3, 3, 5, 9] 1 0 0).jumpTo 3) (fun t => t.cause = .fetchOutOfRange && t.faultIp = 3) = true := by
  decide

/-- An instruction placed for the next fetch runs as the first one after reset, and from the last cell of the store. -/
theorem test_withFetchWord : stepsTo (State.reset.withFetchWord 16 0x0107) (fun t => t.b = 7 && t.ip = 2) = true ∧
    stepsTo ((launched [] 0 0 0).jumpTo 255 |>.withFetchWord 16 0x0502) (fun t => t.out = [2]) = true := by decide

/-- The assembly text of section 1.1 is its cells, and program text is read back (R54). -/
theorem test_assembler : assemble "shift-A 1 ; halve\nemit A\njump-if-A-nonzero 0" = some [0, 1, 5, 4, 3, 0] ∧
    programText [0, 1, 5, 4, 3, 0] = "0,1,5,4,3,0" ∧ parseProgramText "0,1,5,4,3,0" = some [0, 1, 5, 4, 3, 0] ∧
    assemble "xor-B-C A" = none ∧ assemble "emit 256" = none ∧ asmLine (.xorBC 3) = "xor-B-C 3" := by decide

/-! ### Witnesses: the hypotheses of each statement are met -/

/-- A combo cell of each kind, at the ends of its range, and a cell without a value. -/
theorem combo_witness : ComboIs (launched [] 9 8 7) 0 0 ∧ ComboIs (launched [] 9 8 7) 3 3 ∧
    ComboIs (launched [] 9 8 7) 4 9 ∧ ComboIs (launched [] 9 8 7) 5 8 ∧ ComboIs (launched [] 9 8 7) 6 7 ∧
    7 ≤ (7 : Cell).toNat ∧ 7 ≤ (255 : Cell).toNat := by
  unfold ComboIs; decide

theorem witness_OperandKindPerOpcode : decodePair (0 : Cell) 1 = .ok (.shiftA 1) ∧ decodePair (3 : Cell) 7 = .ok (.jumpIfANonzero 7) ∧
    decodePair (4 : Cell) 255 = .ok (.xorBC 255) ∧ decodePair (7 : Cell) 0 = .ok (.shiftCFromA 0) := ⟨rfl, rfl, rfl, rfl⟩
theorem witness_DecodeEncodeAgree : decode ([7, 255, 1] : List Cell) = .ok (.shiftCFromA 255, [1]) := rfl
theorem witness_EncodeProgramRoundTrip : decodeProgram ([0, 1, 7, 255] : List Cell) = .ok [.shiftA 1, .shiftCFromA 255] := rfl
theorem witness_AssemblerMnemonics : assemblePair (mnemonic (.emit 0)) (.letter .a) = some (.emit 4) ∧
    assemblePair (mnemonic (.shiftCFromA 0)) (.letter .b) = some (.shiftCFromA 5) ∧
    assemblePair (mnemonic (.shiftA 0)) (.letter .c) = some (.shiftA 6) := by decide
theorem witness_LiteralIsRawValue : (launched [] 1 0 0).a ≠ 0 := by decide
theorem witness_InvalidComboRaised : (ComboOpcode (Instr.shiftA 7 : Instr).opcode.toNat ∧ 7 ≤ (Instr.shiftA 7 : Instr).operand.toNat) ∧
    (ComboOpcode (Instr.emit 255 : Instr).opcode.toNat ∧ 7 ≤ (Instr.emit 255 : Instr).operand.toNat) ∧
    (¬ ComboOpcode (Instr.xorBC 7 : Instr).opcode.toNat ∧ ∃ t, exec (.xorBC 7) (launched [] 0 5 3) = .next t) := by
  refine ⟨by unfold ComboOpcode; decide, by unfold ComboOpcode; decide, by unfold ComboOpcode; decide, _, rfl⟩
theorem witness_XorBCOperandIgnored : (launched [4] 0 5 3).status = .running ∧
    (launched [4] 0 5 3).ip.toNat + 1 = (launched [4] 0 5 3).len.val ∧ opcodeAt (launched [4] 0 5 3) = 4 := by decide
theorem witness_ShrIsDivision : 0 < (5 : Word).toNat ∧ 0 < (1 : Word).toNat ∧ 64 ≤ (64 : Word).toNat ∧
    (63 : Word).toNat < 64 ∧ combo (launched [] 9 8 7) 3 = some 3 ∧ combo (launched [] 9 8 7) 4 = some 9 ∧
    combo (launched [] 9 8 7) 5 = some 8 ∧ combo (launched [] 9 8 7) 6 = some 7 := by decide
theorem witness_ShiftAResult : (∃ t, exec (.shiftA 1) (launched [] 5 0 0) = .next t ∧ t.a ≠ (launched [] 5 0 0).a) ∧
    ComboIs (launched [] 5 0 0) 1 1 ∧ (4 : Cell).toNat = 4 ∧ 7 ≤ (7 : Cell).toNat :=
  ⟨⟨_, rfl, by decide⟩, by unfold ComboIs; decide⟩
theorem witness_ShiftBFromAResult : ComboIs (launched [] 5 2 0) 5 2 ∧ (4 : Cell).toNat = 4 ∧ 7 ≤ (7 : Cell).toNat := by
  unfold ComboIs; decide
theorem witness_ShiftCFromAResult : (∃ t, exec (.shiftCFromA 6) (launched [] 8 0 1) = .next t ∧ t.c ≠ (launched [] 8 0 1).c) ∧
    ComboIs (launched [] 8 0 1) 6 1 ∧ (4 : Cell).toNat = 4 ∧ 7 ≤ (255 : Cell).toNat :=
  ⟨⟨_, rfl, by decide⟩, by unfold ComboIs; decide⟩
theorem witness_XorBLiteralResult : (0 < 8 ∧ 7 < 8) ∧ 8 ≤ 8 ∧ ∃ t, exec (.xorBLiteral 255) (launched [] 0 0 0) = .next t :=
  ⟨by decide, by decide, _, rfl⟩
theorem witness_StoreBMod8Result : ComboIs (launched [] 9 8 7) 0 0 ∧ ComboIs (launched [] 9 8 7) 6 7 ∧
    7 ≤ (7 : Cell).toNat := by unfold ComboIs; decide
theorem witness_XorBCResult : (launched [] 0 5 0).c = 0 ∧ (launched [] 0 5 5).b = (launched [] 0 5 5).c ∧
    (launched [4] 0 5 3).ip.toNat + 1 = (launched [4] 0 5 3).len.val ∧ (launched [4] 0 5 3).status = .running ∧
    opcodeAt (launched [4] 0 5 3) = 4 := by decide
theorem witness_JumpResult : (launched [] (BitVec.ofNat 64 (2 ^ 63)) 0 0).a.getLsbD 63 = true ∧ (launched [] 0 0 0).a = 0 ∧
    (launched [] 1 0 0).ip.toNat + 2 = (2 : Cell).toNat ∧ (0 : Cell).toNat = (launched [] 1 0 0).ip.toNat ∧
    (launched [] 1 0 0).a ≠ 0 := by decide

/-- A taken jump fetched at ip, to LEN and to LEN - 1. -/
theorem witness_JumpOutsideHaltsNext : (Fetches (launched [3, 2] 1 0 0) ∧ opcodeAt (launched [3, 2] 1 0 0) = 3 ∧
      (launched [3, 2] 1 0 0).a ≠ 0 ∧ (launched [3, 2] 1 0 0).len.val ≤ (operandAt (launched [3, 2] 1 0 0)).toNat) ∧
    (Fetches (launched [3, 1] 1 0 0) ∧ opcodeAt (launched [3, 1] 1 0 0) = 3 ∧
      (operandAt (launched [3, 1] 1 0 0)).toNat + 1 = (launched [3, 1] 1 0 0).len.val) := by
  unfold Fetches; decide
theorem witness_IpAfterInstruction :
    (∃ t, step (launched [3, 7] 1 0 0) = .next t ∧ (t.status = .running && t.ip = 7) = true) ∧
    (∃ t, step (launched [3, 7] 0 0 0) = .next t ∧ (t.status = .running && t.ip = 2) = true) :=
  ⟨exists_of_stepsTo _ _ (by decide), exists_of_stepsTo _ _ (by decide)⟩
/-- From the odd index 1 of `3,1,3,2`, where the cells 1,3 are an instruction, and at its last cell. -/
theorem witness_OddAlignment : (launched [3, 1] 1 0 0).a ≠ 0 ∧
    (∃ t, step (launched [3, 1] 1 0 0) = .next t ∧ (t.status = .running && t.ip.toNat % 2 = 1) = true) ∧
    (let s := (launched [0, 8, 3, 2] 1 0 0).jumpTo 1
     s.status = .running ∧ s.ip.toNat % 2 = 1 ∧ s.len.val % 2 = 0 ∧ 8 ≤ opcodeAt s ∧ s.ip.toNat + 1 < s.len.val) ∧
    (let s := (launched [3, 5, 7, 2] 1 0 0).jumpTo 1
     s.status = .running ∧ s.ip.toNat % 2 = 1 ∧ s.len.val % 2 = 0 ∧ opcodeAt s = 5 ∧ (operandAt s).toNat = 7) ∧
    (let s := (launched [3, 1, 3, 2] 1 0 0).jumpTo 1
     s.ip.toNat + 1 < s.len.val ∧ decodePair (Memory.read s.prog s.ip.toNat) (operandAt s) = .ok (.xorBLiteral 3)) ∧
    (let s := (launched [3, 1, 3, 2] 1 0 0).jumpTo 3
     s.status = .running ∧ s.ip.toNat % 2 = 1 ∧ s.len.val % 2 = 0 ∧ s.ip.toNat + 1 = s.len.val) :=
  ⟨by decide, exists_of_stepsTo _ _ (by decide), by decide, by decide, ⟨by decide, rfl⟩, by decide⟩
theorem witness_SelfJumpNeverEnds : Fetches (launched [3, 0] 1 0 0) ∧ opcodeAt (launched [3, 0] 1 0 0) = 3 ∧
    (operandAt (launched [3, 0] 1 0 0)).toNat = (launched [3, 0] 1 0 0).ip.toNat ∧ (launched [3, 0] 1 0 0).a ≠ 0 := by
  unfold Fetches; decide

theorem witness_EmitResult : (ComboIs (launched [5, 5] 0 5 0) 5 5 ∧ (launched [5, 5] 0 5 0).mode = .full) ∧
    (let s := launched [5, 5] 0 5 0 .verify
     ComboIs s 5 5 ∧ s.mode = .verify ∧ s.out.length < s.len.val ∧ cellAt s s.out.length = (5 : Word).toNat % 8) ∧
    (let s := launched [5, 5] 0 4 0 .verify
     ComboIs s 5 4 ∧ s.mode = .verify ∧ cellAt s s.out.length ≠ (4 : Word).toNat % 8) ∧
    (let s := launched [] 0 4 0 .verify
     ComboIs s 5 4 ∧ s.mode = .verify ∧ s.len.val ≤ s.out.length) := by
  unfold ComboIs; decide
theorem witness_DivergesExactlyWhen :
    (∃ t, step (launched [5, 0] 0 0 0 .verify) = .next t ∧ (t.status = .haltDiverged) = true) ∧
    (let s := (launched [8, 5, 0] 0 0 0 .verify).jumpTo 1
     Fetches s ∧ opcodeAt s = 5 ∧ (operandAt s).toNat ≤ 6 ∧ s.mode = .verify ∧ 8 ≤ cellAt s s.out.length ∧
       stepsTo s (fun _ => true) = true) ∧
    (let s := launched [5, 7] 0 0 0 .verify
     Fetches s ∧ opcodeAt s = 5 ∧ 7 ≤ (operandAt s).toNat ∧ stepsTo s (fun _ => true) = true) := by
  refine ⟨?_, by unfold Fetches; decide, by unfold Fetches; decide⟩
  obtain ⟨t, h1, h2⟩ := exists_of_stepsTo (launched [5, 0] 0 0 0 .verify) (fun t => t.status = .haltDiverged) (by decide)
  exact ⟨t, h1, by simpa using h2⟩
theorem witness_DivergenceState :
    ∃ t, step (launched [5, 0] 0 0 0 .verify) = .next t ∧ (t.status = .haltDiverged && t.out.length ≤ 256) = true :=
  exists_of_stepsTo _ _ (by decide)
theorem witness_OutputEvents :
    (Fetches (launched [5, 3] 0 0 0) ∧ opcodeAt (launched [5, 3] 0 0 0) = 5) ∧
    (∃ t, step (launched [5, 3] 0 0 0) = .next t ∧ (t.status = .running) = true) ∧
    (∃ t, step (launched [1, 3] 0 0 0) = .next t ∧ opcodeAt (launched [1, 3] 0 0 0) ≠ 5) ∧
    (∃ t, hostStart (launched [5, 3] 0 0 0).haltEnd = .next t) := by
  refine ⟨by unfold Fetches; decide, ?_, ?_, _, rfl⟩
  · obtain ⟨t, h1, h2⟩ := exists_of_stepsTo (launched [5, 3] 0 0 0) (fun t => t.status = .running) (by decide)
    exact ⟨t, h1, by simpa using h2⟩
  · obtain ⟨t, h1, _⟩ := exists_of_stepsTo (launched [1, 3] 0 0 0) (fun _ => true) (by decide)
    exact ⟨t, h1, by decide⟩

theorem witness_InvalidOpcodeRaised : (Fetches (launched [8, 0] 0 0 0) ∧ 8 ≤ opcodeAt (launched [8, 0] 0 0 0)) ∧
    (Fetches (launched [255, 255] 0 0 0) ∧ 8 ≤ opcodeAt (launched [255, 255] 0 0 0)) := by
  unfold Fetches; decide

/-- A well-formed program that jumps only to even targets (program P2), and one step of it. -/
theorem wellFormed_witness : WellFormedProgram (launched [0, 3, 5, 4, 3, 0] 117440 0 0) ∧
    EvenJumps (launched [0, 3, 5, 4, 3, 0] 117440 0 0) := by
  unfold WellFormedProgram LenEven OpcodesValid CombosValid EvenJumps ComboOpcode
  have len6 : (launched [0, 3, 5, 4, 3, 0] 117440 0 0).len.val = 6 := rfl
  rw [len6]
  exact ⟨by decide, by decide⟩
theorem witness_FetchOutOfRangeRaised : ((launched [5] 0 0 0).status = .running ∧
      (launched [5] 0 0 0).ip.toNat + 1 = (launched [5] 0 0 0).len.val) ∧
    (∃ t, step (launched [5] 0 0 0) = .next t ∧ ((launched [5] 0 0 0).cause = .none && t.cause = .fetchOutOfRange) = true) ∧
    (∃ t, Runs 1 (launched [0, 3, 5, 4, 3, 0] 117440 0 0).launch t ∧ (fun _ => true) t = true) :=
  ⟨by decide, exists_of_stepsTo _ _ (by decide), exists_of_runsTo _ _ _ (by decide)⟩
theorem witness_HaltAtEnd : ((launched [] 1 2 3).status = .running ∧
      (launched [] 1 2 3).len.val ≤ (launched [] 1 2 3).ip.toNat) ∧
    ((launched [] 1 2 3).haltEnd.len.val = 0 ∧ ∃ t, hostStart (launched [] 1 2 3).haltEnd = .next t) :=
  ⟨by decide, by decide, _, rfl⟩
theorem witness_StepPriority :
    (let s := (launched [5, 3] 0 0 0).jumpTo 2; s.status = .running ∧ s.len.val ≤ s.ip.toNat) ∧
    (let s := launched [9] 0 0 0; s.status = .running ∧ s.ip.toNat + 1 = s.len.val) ∧
    (let s := launched [8, 7] 0 0 0; s.status = .running ∧ s.ip.toNat + 1 < s.len.val ∧ 7 < opcodeAt s) ∧
    (let s := launched [5, 7] 0 0 0 .verify
     s.status = .running ∧ s.ip.toNat + 1 < s.len.val ∧ ComboOpcode (opcodeAt s) ∧ 7 ≤ (operandAt s).toNat) ∧
    (let s := launched [5, 0] 0 0 0 .verify
     s.status = .running ∧ s.ip.toNat + 1 < s.len.val ∧ opcodeAt s = 5 ∧ ComboIs s (operandAt s) 0 ∧ TurnedDown s 0) ∧
    (let s := launched [7, 6] 0 0 0
     s.status = .running ∧ s.ip.toNat + 1 < s.len.val ∧ opcodeAt s ≤ 7 ∧ (operandAt s).toNat ≤ 6 ∧ opcodeAt s ≠ 5) := by
  unfold ComboOpcode ComboIs TurnedDown; decide
theorem witness_StepIsAtomic :
    (∃ t, step (launched [5] 0 0 0) = .next t ∧ (t.status = .fault && true) = true) ∧
    (∃ t, step (launched [] 0 0 0) = .next t ∧ (t.status = .haltEnd && true) = true) ∧
    (∃ t, step (launched [5, 0] 0 0 0 .verify) = .next t ∧ (t.status = .haltDiverged && true) = true) ∧
    (∃ t, step (launched [5, 0] 0 0 0) = .next t ∧ (t.status = .running && true) = true) :=
  ⟨exists_of_stepsTo _ _ (by decide), exists_of_stepsTo _ _ (by decide), exists_of_stepsTo _ _ (by decide),
    exists_of_stepsTo _ _ (by decide)⟩
theorem witness_FaultEntry :
    (∃ t, step (launched [8, 0] 0 0 0) = .next t ∧ (t.status = .fault && t.cause = .invalidOpcode) = true) ∧
    (∃ t, step (launched [5, 7] 0 0 0) = .next t ∧ (t.status = .fault && t.cause = .invalidCombo) = true) ∧
    (∃ t, step (launched [5] 0 0 0) = .next t ∧ (t.status = .fault && t.cause = .fetchOutOfRange) = true) :=
  ⟨exists_of_stepsTo _ _ (by decide), exists_of_stepsTo _ _ (by decide), exists_of_stepsTo _ _ (by decide)⟩
theorem witness_FaultSticky : ((launched [5] 0 0 0).raise .fetchOutOfRange).status = .fault ∧
    Runs 0 ((launched [5] 0 0 0).raise .fetchOutOfRange) ((launched [5] 0 0 0).raise .fetchOutOfRange) ∧
    ∃ t, hostStart ((launched [5] 0 0 0).raise .fetchOutOfRange) = .next t := ⟨rfl, rfl, _, rfl⟩
theorem witness_StepRunsDecoded : Fetches (launched [5, 3] 0 0 0) ∧
    decodePair (Memory.read (launched [5, 3] 0 0 0).prog (launched [5, 3] 0 0 0).ip.toNat) (operandAt (launched [5, 3] 0 0 0)) =
      .ok (.emit 3) := ⟨by unfold Fetches; decide, rfl⟩
theorem witness_FetchWordIsRun : Memory.wf State.reset.prog = true ∧ decodeTableWord 16 0x0503 = some (.emit 3) := by decide

/-- A machine of 8-bit registers, 4-bit cells, 16 cells and a 5-bit ip, with the program `0,5`. -/
def smallMachine (a b : Word 8) : State 8 4 16 5 :=
  { (State.powerOn : State 8 4 16 5) with
    prog := Memory.writeCells [] 0 [0, 5], len := 2, a := a, b := b, status := .running }

/-- Its step (vectors S3 and S4 with XLEN = 8), and the over-wide shift under either SHAMT_OVER (R67 point c). -/
theorem test_stepUnder : stepUnder (smallMachine 128 7) = .next { smallMachine 1 7 with ip := 2 } ∧
    stepUnder (smallMachine 128 8) = .next { smallMachine 0 8 with ip := 2 } ∧
    stepUnder (smallMachine 128 8) .fault = .fault (.shiftAmount 8) := ⟨rfl, rfl, rfl⟩
theorem witness_AnyAdmissibleParameters : Config.Admissible 8 4 16 5 ∧ (smallMachine 128 8).status = .running ∧
    (∃ t, stepUnder (smallMachine 128 8) .fault = .fault t) ∧ (∃ t, stepUnder (smallMachine 128 7) .fault = .next t) ∧
    ∃ t, stepUnder { smallMachine 1 0 with prog := Memory.writeCells [] 0 [3, 15] } = .next t ∧ t.ip = 15 :=
  ⟨⟨by decide, by decide, by decide, by decide⟩, rfl, ⟨_, rfl⟩, ⟨_, rfl⟩, _, rfl, rfl⟩

/-- A step answers a next state: the one hypothesis of LaunchInputsKept. -/
theorem witness_LaunchInputsKept : ∃ t, step (launched [0, 1] 9 0 0) = .next t ∧ (t.a = 4) = true := by
  obtain ⟨t, h1, h2⟩ := exists_of_stepsTo (launched [0, 1] 9 0 0) (fun t => t.a = 4) (by decide)
  exact ⟨t, h1, by simpa using h2⟩
theorem witness_RegisterWriters : (∃ t, exec (.shiftA 1) (launched [] 9 0 0) = .next t ∧ t.a ≠ 9) ∧
    (∃ t, exec (.xorBLiteral 1) (launched [] 9 0 0) = .next t ∧ t.b ≠ 0) ∧
    (∃ t, exec (.shiftCFromA 1) (launched [] 9 0 0) = .next t ∧ t.c ≠ 0) ∧
    (∃ t, exec (.emit 1) (launched [] 9 0 0) = .next t ∧ t.out ≠ []) :=
  ⟨⟨_, rfl, by decide⟩, ⟨_, rfl, by decide⟩, ⟨_, rfl, by decide⟩, ⟨_, rfl, by decide⟩⟩
theorem witness_RegisterLengthBound : ∃ t, exec (.shiftA 1) (launched [] 9 0 0) = .next t := ⟨_, rfl⟩
/-- The second state differs in a cell beyond LEN and in an initial value. -/
theorem witness_StepDependsOnlyOn :
    SameForStep (launched [5, 3] 0 0 0) { launched [5, 3] 0 0 0 with prog := [(0, 5), (1, 3), (9, 1)], aInit := 7 } ∧
    ∃ t, step (launched [5, 3] 0 0 0) = .next t ∧ (fun _ => true) t = true := by
  refine ⟨⟨?_, by decide⟩, exists_of_stepsTo _ _ (by decide)⟩
  have len2 : (launched [5, 3] 0 0 0).len.val = 2 := rfl
  rw [len2]
  decide

theorem witness_LaunchReset : (launched [5, 3] 1 2 3).haltEnd.status ≠ .running ∧
    (launched [5, 3] 1 2 3).haltEnd.loaded.complete = true := by decide
/-- A finished run and a faulted run of the same launch inputs. -/
theorem witness_LaunchForgetsTheLastRun :
    let s := (launched [5, 3] 1 2 3).haltEnd
    let t := (launched [5, 3] 1 2 3).raise .fetchOutOfRange
    s.prog = t.prog ∧ s.len = t.len ∧ s.aInit = t.aInit ∧ s.bInit = t.bInit ∧ s.cInit = t.cInit ∧ s.mode = t.mode ∧
    s.loaded = t.loaded ∧ t.status ≠ .running ∧ ∃ u, hostStart s = .next u :=
  ⟨rfl, rfl, rfl, rfl, rfl, rfl, rfl, by decide, _, rfl⟩
theorem witness_LoadEffect : State.reset.status ≠ .running := by decide
theorem witness_NoHostMoveWhileRunning : (launched [] 0 0 0).status = .running ∧
    ∃ t, hostMove .powerOn (launched [] 0 0 0) = .next t := ⟨rfl, _, rfl⟩
theorem witness_ReadReturns : State.reset.status ≠ .running := by decide
theorem witness_CleanEntry : State.reset.status ≠ .running ∧
    ∃ t, Runs 1 (launched [5, 3] 0 0 0) t ∧ (fun _ => true) t = true :=
  ⟨by decide, exists_of_runsTo _ _ _ (by decide)⟩
theorem witness_RunDelivers : (launched [] 0 0 0).haltEnd.status = .haltEnd ∧
    ((launched [] 0 0 0).diverge 1).status = .haltDiverged ∧
    ((launched [] 0 0 0).raise .fetchOutOfRange).status = .fault := ⟨rfl, rfl, rfl⟩

/-- The invariant holds in a VERIFY run in progress. -/
theorem inv_witness : Inv (launched [5, 5] 0 5 0 .verify) := by
  refine ⟨by decide, ⟨by decide, by decide, by decide⟩, ?_, ?_, fun _ => by decide, fun _ _ => ⟨by decide, ?_⟩⟩
  · intro h; cases h
  · unfold IpInv; decide
  · intro j d h; simp [launched] at h
/-- The invariant holds after a VERIFY run, where the host may load and launch again. -/
theorem inv_halted_witness : Inv (launched [5, 5] 0 5 0 .verify).haltEnd := by
  refine ⟨by decide, ⟨by decide, by decide, by decide⟩, ?_, ?_, fun _ => by decide, fun _ _ => ⟨by decide, ?_⟩⟩
  · intro h; cases h
  · unfold IpInv; decide
  · intro j d h; simp [launched] at h
theorem witness_StepKeepsInv : Inv (launched [5, 5] 0 5 0 .verify) ∧
    ∃ t, step (launched [5, 5] 0 5 0 .verify) = .next t ∧ (fun t => t.out = [5]) t = true :=
  ⟨inv_witness, by
    obtain ⟨t, h1, h2⟩ := exists_of_stepsTo (launched [5, 5] 0 5 0 .verify) (fun t => t.out = [5]) (by decide)
    exact ⟨t, h1, by simpa using h2⟩⟩
theorem witness_HostMovesKeepInv : Inv (launched [5, 5] 0 5 0 .verify) ∧
    (∃ t, hostMove .powerOn (launched [5, 5] 0 5 0 .verify) = .next t) ∧
    Inv (launched [5, 5] 0 5 0 .verify).haltEnd ∧
    (∃ t, hostMove (.load ⟨none, some 1, none, none, none⟩) (launched [5, 5] 0 5 0 .verify).haltEnd = .next t) ∧
    ∃ t, hostMove .start (launched [5, 5] 0 5 0 .verify).haltEnd = .next t :=
  ⟨inv_witness, ⟨_, rfl⟩, inv_halted_witness, ⟨_, rfl⟩, _, rfl⟩
theorem witness_ReachableStatesAreSound : Reachable (launched [5, 5] 0 5 0 .verify) :=
  .host .start _ _ (.host (.load ⟨some ⟨[5, 5], by decide⟩, some 0, some 5, some 0, some .verify⟩) _ _ .powerOn rfl) rfl
theorem witness_VerifyRunInvariant :
    (∃ t, Runs 2 (withMode (launched [5, 5] 0 5 0) .verify).launch t ∧ (t.status = .haltEnd && t.out = [5]) = true) ∧
    (∃ t, Runs 1 (withMode (launched [5, 5] 0 4 0) .verify).launch t ∧ (t.status = .haltDiverged && t.out = []) = true) :=
  ⟨exists_of_runsTo _ _ _ (by decide), exists_of_runsTo _ _ _ (by decide)⟩
/-- A VERIFY run that halts, a FULL run whose output is where the program begins, a VERIFY run that diverges with a FULL
run that ends, a FULL run that faults. -/
theorem witness_ModesAgree :
    (∃ t, Runs 2 (withMode (launched [5, 5] 0 5 0) .verify).launch t ∧ (t.status ≠ .haltDiverged && true) = true) ∧
    (∃ t, Runs 2 (withMode (launched [5, 5] 0 5 0) .full).launch t ∧ (t.status = .haltEnd && t.out = [5]) = true) ∧
    ((∃ t, Runs 1 (withMode (launched [5, 5] 0 4 0) .verify).launch t ∧ (t.status = .haltDiverged && true) = true) ∧
     (∃ u, Runs 2 (withMode (launched [5, 5] 0 4 0) .full).launch u ∧ (u.status = .haltEnd && u.out = [4]) = true)) ∧
    (∃ t, Runs 1 (withMode (launched [5, 7] 0 4 0) .full).launch t ∧ (t.status = .fault && true) = true) :=
  ⟨exists_of_runsTo _ _ _ (by decide), exists_of_runsTo _ _ _ (by decide),
    ⟨exists_of_runsTo _ _ _ (by decide), exists_of_runsTo _ _ _ (by decide)⟩, exists_of_runsTo _ _ _ (by decide)⟩
/-- FULL out `5` of the program `5,5` agrees with the cell at its position, as the second point of ModesAgree asks. -/
theorem witness_OutMatches : OutMatches ((launched [5, 5] 0 5 0).append 5) := by
  refine ⟨by decide, fun j d h => ?_⟩
  match j, h with
  | 0, h => cases h; decide
  | j + 1, h => simp [State.append, launched] at h
theorem witness_StepCount : (launched [5, 5] 0 5 0).status = .running ∧
    ∃ t, Runs 2 (launched [5, 5] 0 5 0) t ∧ Finished t := by
  obtain ⟨t, h1, h2⟩ := exists_of_runsTo 2 (launched [5, 5] 0 5 0) (fun t => t.status = .haltEnd) (by decide)
  exact ⟨rfl, t, h1, .inl (by simpa using h2)⟩
theorem witness_EndOfRunIp :
    (∃ t, Runs 2 (launched [5, 5] 0 5 0).launch t ∧ (t.status = .haltEnd && t.ip = 2) = true) ∧
    (∃ t, Runs 2 (launched [3, 255] 1 0 0).launch t ∧ (t.status = .haltEnd && t.ip = 255) = true) :=
  ⟨exists_of_runsTo _ _ _ (by decide), exists_of_runsTo _ _ _ (by decide)⟩
theorem witness_WellFormedNeverFaults : (WellFormedProgram (launched [0, 3, 5, 4, 3, 0] 117440 0 0) ∧
      EvenJumps (launched [0, 3, 5, 4, 3, 0] 117440 0 0)) ∧
    ∃ t, Runs 3 (launched [0, 3, 5, 4, 3, 0] 117440 0 0).launch t ∧ (t.ip = 0 && t.out = [0]) = true :=
  ⟨wellFormed_witness, exists_of_runsTo _ _ _ (by decide)⟩

end Sys2Proof.Tests
end

section
/-! Runs of a well-formed program that jumps only to even targets (spec/00_scope.md R6, spec/92_eei_decisions.md D9). -/
namespace Sys2Proof.Safety

open Sys2Proof.Machine

/-- No step writes a launch input (spec/10_state.md R17, R18; spec/20_memory.md R28). -/
theorem step_keeps_launchInputs (s t : State) (h : step s = .next t) :
    t.prog = s.prog ∧ t.len = s.len ∧ t.aInit = s.aInit ∧ t.bInit = s.bInit ∧ t.cInit = s.cInit ∧ t.mode = s.mode ∧
      t.loaded = s.loaded := by
  obtain ⟨-, ⟨-, rfl⟩ | ⟨-, rfl⟩ | ⟨-, -, rfl⟩ | ⟨-, -, -, rfl⟩ | ⟨-, -, x, -, -, rfl⟩ | ⟨-, -, x, -, -, rfl⟩ |
    ⟨-, -, -, rfl⟩ | ⟨-, -, -, rfl⟩ | ⟨-, -, -, -, -, r, w, rfl⟩⟩ := step_next_cases s t h
  all_goals exact ⟨rfl, rfl, rfl, rfl, rfl, rfl, rfl⟩

/-- Being well-formed is a property of the program store and LEN alone. -/
theorem wellFormedProgram_congr {s t : State} (hp : t.prog = s.prog) (hl : t.len = s.len) :
    WellFormedProgram t ↔ WellFormedProgram s := by
  simp only [WellFormedProgram, LenEven, OpcodesValid, CombosValid, cellAt, hp, hl]

/-- Jumping only to even targets is a property of the program store and LEN alone. -/
theorem evenJumps_congr {s t : State} (hp : t.prog = s.prog) (hl : t.len = s.len) : EvenJumps t ↔ EvenJumps s := by
  simp only [EvenJumps, cellAt, hp, hl]

/-- The invariant of a run that never faults: the program is well-formed and jumps only to even targets, ip is even, and
no fault has been taken. -/
def EvenRun (s : State) : Prop :=
  WellFormedProgram s ∧ EvenJumps s ∧ s.ip.toNat % 2 = 0 ∧ s.status ≠ .fault

/-- A launch of a well-formed program with even jumps begins such a run. -/
theorem evenRun_launch (s : State) (hw : WellFormedProgram s) (hj : EvenJumps s) : EvenRun s.launch :=
  ⟨(wellFormedProgram_congr rfl rfl).2 hw, (evenJumps_congr rfl rfl).2 hj, rfl, by simp⟩

/-- A step from an even ip of such a program leaves ip even and takes no fault: the opcode and combo checks pass by
well-formedness, and an even ip is never LEN - 1, since LEN is even. -/
theorem step_even_no_fault (s t : State) (hs : EvenRun s) (h : step s = .next t) :
    t.ip.toNat % 2 = 0 ∧ t.status ≠ .fault := by
  obtain ⟨⟨hlen, hops, hcombos⟩, hjumps, hip, -⟩ := hs
  have opcode_in (hf : Fetches s) : s.ip.toNat < s.len.val := Nat.lt_of_succ_lt hf.2
  have advance_even (hf : Fetches s) : (s.ip + 2).toNat % 2 = 0 := by
    rw [advance_toNat s hf]; omega
  obtain ⟨hrun, ⟨-, rfl⟩ | ⟨hlast, -⟩ | ⟨hf, hop, -⟩ | ⟨hf, hop, hv, -⟩ | ⟨-, -, x, -, -, rfl⟩ | ⟨hf, -, x, -, -, rfl⟩ |
    ⟨hf, hop, -, rfl⟩ | ⟨hf, -, -, rfl⟩ | ⟨hf, -, -, -, -, r, w, rfl⟩⟩ := step_next_cases s t h
  · exact ⟨hip, by simp⟩
  · unfold LenEven at hlen; omega
  · have := hops _ (opcode_in hf) hip
    unfold opcodeAt at hop; omega
  · have := hcombos _ (opcode_in hf) hip hop
    unfold operandAt at hv; unfold cellAt at this; omega
  · exact ⟨hip, by simp⟩
  · exact ⟨advance_even hf, by simp [hrun]⟩
  · refine ⟨?_, by simp [hrun]⟩
    have := hjumps _ (opcode_in hf) hip hop
    simpa [literalTarget, operandAt, cellAt] using this
  · exact ⟨advance_even hf, by simp [hrun]⟩
  · exact ⟨advance_even hf, by simp [hrun]⟩

/-- Every step keeps the invariant of a run that never faults. -/
theorem step_keeps_evenRun (s t : State) (hs : EvenRun s) (h : step s = .next t) : EvenRun t := by
  obtain ⟨hp, hl, -⟩ := step_keeps_launchInputs s t h
  exact ⟨(wellFormedProgram_congr hp hl).2 hs.1, (evenJumps_congr hp hl).2 hs.2.1, step_even_no_fault s t hs h⟩

/-- The invariant holds at every state of a run of a well-formed program with even jumps. -/
theorem runs_evenRun {s : State} {n : Nat} {t : State} (hw : WellFormedProgram s) (hj : EvenJumps s)
    (h : Runs n s.launch t) : EvenRun t :=
  runs_keep EvenRun step_keeps_evenRun n s.launch t (evenRun_launch s hw hj) h

/-- Settles O59: `EvenRun` holds at launch and every step keeps it. -/
theorem wellFormedNeverFaults : Obligations.WellFormedNeverFaults := by
  intro s n t hw hj hrun
  obtain ⟨-, -, hip, hstatus⟩ := runs_evenRun hw hj hrun
  exact ⟨hstatus, hip⟩

end Sys2Proof.Safety
end

section
/-! The step of a machine of any admissible parameters (spec/00_scope.md R5). -/
namespace Sys2Proof.Machine

variable {xlen cellw lenMax ipw : Nat}

/-! ### The decided parameters -/

/-- Under the decided values `stepUnder` is `step`: the two cycles execute instructions alike. -/
theorem stepUnder_decided (s : State) : stepUnder s = step s :=
  congrArg (fun run => cycleWhenRunning run s) (funext fun i => funext (execUnder_decided i))

/-! ### The right shift -/

/-- A right shift is floor division by a power of two, whatever the width. -/
theorem ushiftRight_eq_ofNat_div (v : Word xlen) (n : Nat) : v >>> n = BitVec.ofNat xlen (v.toNat / 2 ^ n) := by
  apply BitVec.eq_of_toNat_eq
  have : v.toNat / 2 ^ n < 2 ^ xlen := Nat.lt_of_le_of_lt (Nat.div_le_self _ _) v.isLt
  rw [BitVec.toNat_ushiftRight, Nat.shiftRight_eq_div_pow, BitVec.toNat_ofNat, Nat.mod_eq_of_lt this]

/-- `Shr(v, s)` under either SHAMT_OVER: floor division, but no result for an over-wide amount under `fault`. -/
theorem shrUnder_eq (shamtOver : Config.ShamtOver) (v amount : Word xlen) :
    shrUnder shamtOver v amount =
      if xlen ≤ amount.toNat ∧ shamtOver = .fault then none
      else some (BitVec.ofNat xlen (v.toNat / 2 ^ amount.toNat)) := by
  rcases shrUnder_cases shamtOver v amount with ⟨hz, h⟩ | ⟨hf, hl, h⟩
  · have : ¬ (xlen ≤ amount.toNat ∧ shamtOver = .fault) := by
      rintro ⟨hl, rfl⟩
      rcases hz with hz | hz
      · omega
      · cases hz
    rw [if_neg this, h, ushiftRight_eq_ofNat_div]
  · rw [if_pos ⟨hl, hf⟩, h]

/-! ### Decoding and stepping, at any parameters -/

/-- What the decoder answers at any cell width: an instruction with the operand cell as it is, a shift exactly for the
opcodes 0, 6 and 7, a jump for opcode 3 alone; or a refusal, for the opcode cells above 7. -/
theorem decodePair_cases (opcode operand : Cell cellw) :
    (∃ i, decodePair opcode operand = .ok i ∧ i.operand = operand ∧
      (isShift i = true ↔ opcode.toNat = 0 ∨ opcode.toNat = 6 ∨ opcode.toNat = 7) ∧
      ∀ v, i = .jumpIfANonzero v → opcode.toNat = 3) ∨
    (8 ≤ opcode.toNat ∧ decodePair opcode operand = .error (.invalidOpcode opcode)) := by
  unfold decodePair
  split
  case h_9 h0 h1 h2 h3 h4 h5 h6 h7 => exact .inr ⟨by simp only [imp_false] at *; omega, rfl⟩
  case h_4 hop => exact .inl ⟨_, rfl, rfl, by simp [isShift, hop], fun _ _ => hop⟩
  all_goals
    rename_i hop
    exact .inl ⟨_, rfl, rfl, by simp [isShift, hop], nofun⟩

/-- What is known of an instruction that two cells decode to, at any cell width. -/
theorem decodePair_ok_facts {opcode operand : Cell cellw} {i : Instr cellw} (hd : decodePair opcode operand = .ok i) :
    i.operand = operand ∧ (isShift i = true ↔ opcode.toNat = 0 ∨ opcode.toNat = 6 ∨ opcode.toNat = 7) ∧
      ∀ v, i = .jumpIfANonzero v → opcode.toNat = 3 := by
  rcases decodePair_cases opcode operand with ⟨j, hj, facts⟩ | ⟨-, he⟩
  · cases hd.symm.trans hj; exact facts
  · cases hd.symm.trans he

/-- A machine of any parameters has no step while no run is in progress, and says so by `noStep`. -/
theorem stepUnder_of_not_running (shamtOver : Config.ShamtOver) (s : State xlen cellw lenMax ipw)
    (hs : s.status ≠ .running) : stepUnder s shamtOver = .fault (.noStep s.status) := by
  simp [stepUnder, cycleWhenRunning, hs]

/-- Everything a step of a machine of any parameters can do: nothing when no run is in progress; else halt, raise
FetchOutOfRange, raise InvalidOpcode, or execute the instruction at ip. -/
theorem stepUnder_cases (shamtOver : Config.ShamtOver) (s : State xlen cellw lenMax ipw) :
    (s.status ≠ .running ∧ stepUnder s shamtOver = .fault (.noStep s.status)) ∨
    (s.status = .running ∧
      ((s.len.val ≤ s.ip.toNat ∧ stepUnder s shamtOver = .next s.haltEnd) ∨
       (s.ip.toNat + 1 = s.len.val ∧ stepUnder s shamtOver = .next (s.raise .fetchOutOfRange)) ∨
       (s.ip.toNat + 1 < s.len.val ∧ 8 ≤ (Memory.read s.prog s.ip.toNat).toNat ∧
         stepUnder s shamtOver = .next (s.raise (.invalidOpcode (Memory.read s.prog s.ip.toNat)))) ∨
       (s.ip.toNat + 1 < s.len.val ∧
         ∃ i, decodePair (Memory.read s.prog s.ip.toNat) (Memory.read s.prog (s.ip.toNat + 1)) = .ok i ∧
           stepUnder s shamtOver = execUnder shamtOver i s))) := by
  by_cases hs : s.status = .running
  · refine .inr ⟨hs, ?_⟩
    unfold stepUnder cycleWhenRunning cycle
    rcases s.fetch_cases with ⟨h, hf⟩ | ⟨h, hf⟩ | ⟨h, hf⟩
    · exact .inl ⟨h, by simp [hs, hf]⟩
    · exact .inr (.inl ⟨h, by simp [hs, hf]⟩)
    · rcases decodePair_cases (Memory.read s.prog s.ip.toNat) (Memory.read s.prog (s.ip.toNat + 1)) with
        ⟨i, hd, -⟩ | ⟨ho, hd⟩
      · exact .inr (.inr (.inr ⟨h, i, hd, by simp [hs, hf, hd]⟩))
      · exact .inr (.inr (.inl ⟨h, ho, by simp [hs, hf, hd]⟩))
  · exact .inl ⟨hs, stepUnder_of_not_running shamtOver s hs⟩

/-! ### ip as a number (spec/10_state.md R15, spec/40_execution_cycle.md R59) -/

/-- Where ip stands after a step that answers `t`: two cells on or at the target of a taken jump, as a number, while the
run goes on; unmoved where the run ends. -/
def IpFollows (s t : State xlen cellw lenMax ipw) : Prop :=
  (t.status = .running → t.ip.toNat = s.ip.toNat + 2 ∨
    ((Memory.read s.prog s.ip.toNat).toNat = 3 ∧ s.a ≠ 0 ∧
      t.ip.toNat = (Memory.read s.prog (s.ip.toNat + 1)).toNat)) ∧
  (t.status ≠ .running → t.ip = s.ip)

theorem ipFollows_of_stop {s t : State xlen cellw lenMax ipw} (hs : t.status ≠ .running) (hip : t.ip = s.ip) :
    IpFollows s t := ⟨fun h => absurd h hs, fun _ => hip⟩

theorem ipFollows_of_running {s t : State xlen cellw lenMax ipw} (hs : t.status = .running)
    (hip : t.ip.toNat = s.ip.toNat + 2 ∨ ((Memory.read s.prog s.ip.toNat).toNat = 3 ∧ s.a ≠ 0 ∧
      t.ip.toNat = (Memory.read s.prog (s.ip.toNat + 1)).toNat)) : IpFollows s t :=
  ⟨fun _ => hip, fun h => absurd hs h⟩

/-- An advance from a fetched instruction does not wrap: ip + 2 is at most LEN, which ip holds. -/
theorem advance_toNat_of_admissible (adm : Config.Admissible xlen cellw lenMax ipw)
    (s : State xlen cellw lenMax ipw) (hf : s.ip.toNat + 1 < s.len.val) : (s.ip + 2).toNat = s.ip.toNat + 2 := by
  have hlen := s.len.isLt
  have hmax := adm.ip_holds_len
  have two : (2 : CellIndex ipw).toNat = 2 := (BitVec.toNat_ofNat 2 ipw).trans (Nat.mod_eq_of_lt (by omega))
  rw [BitVec.toNat_add, two, Nat.mod_eq_of_lt (by omega)]

/-- A jump target is the cell's whole value: ip holds every cell value. -/
theorem literalTarget_toNat_of_admissible (adm : Config.Admissible xlen cellw lenMax ipw) (v : Cell cellw) :
    (literalTarget v : CellIndex ipw).toNat = v.toNat := by
  have hv := v.isLt
  have hmax := adm.ip_holds_target
  rw [literalTarget, BitVec.toNat_setWidth, Nat.mod_eq_of_lt (by omega)]

/-! ### The over-wide shift under SHAMT_OVER = fault (spec/41_shift.md R67 point c) -/

/-- The next step is a shift by the amount `n` of XLEN or more, and SHAMT_OVER is `fault`. -/
def OverWideShift (shamtOver : Config.ShamtOver) (s : State xlen cellw lenMax ipw) (n : Nat) : Prop :=
  shamtOver = .fault ∧ s.status = .running ∧ s.ip.toNat + 1 < s.len.val ∧
    ((Memory.read s.prog s.ip.toNat).toNat = 0 ∨ (Memory.read s.prog s.ip.toNat).toNat = 6 ∨
      (Memory.read s.prog s.ip.toNat).toNat = 7) ∧
    ∃ x, combo s (Memory.read s.prog (s.ip.toNat + 1)) = some x ∧ xlen ≤ x.toNat ∧ x.toNat = n

/-- A state has at most one over-wide amount. -/
theorem OverWideShift.unique {shamtOver : Config.ShamtOver} {s : State xlen cellw lenMax ipw} {m n : Nat}
    (hm : OverWideShift shamtOver s m) (hn : OverWideShift shamtOver s n) : m = n := by
  obtain ⟨-, -, -, -, x, hx, -, rfl⟩ := hm
  obtain ⟨-, -, -, -, y, hy, -, rfl⟩ := hn
  rw [Option.some.inj (hx.symm.trans hy)]

/-- The over-wide shift in terms of the instruction at ip. -/
theorem overWideShift_iff_of_decoded (shamtOver : Config.ShamtOver) {s : State xlen cellw lenMax ipw} {i : Instr cellw}
    (hs : s.status = .running) (hf : s.ip.toNat + 1 < s.len.val)
    (hd : decodePair (Memory.read s.prog s.ip.toNat) (Memory.read s.prog (s.ip.toNat + 1)) = .ok i) (n : Nat) :
    OverWideShift shamtOver s n ↔
      shamtOver = .fault ∧ isShift i = true ∧ ∃ x, combo s i.operand = some x ∧ xlen ≤ x.toNat ∧ x.toNat = n := by
  obtain ⟨hoperand, hshift, -⟩ := decodePair_ok_facts hd
  simp [OverWideShift, hs, hf, hoperand, hshift]

/-- The instruction at ip answers a next state with ip where it belongs, or stops at an over-wide shift, never both. -/
theorem execUnder_of_decoded (adm : Config.Admissible xlen cellw lenMax ipw) (shamtOver : Config.ShamtOver)
    {s : State xlen cellw lenMax ipw} {i : Instr cellw} (hs : s.status = .running) (hf : s.ip.toNat + 1 < s.len.val)
    (hd : decodePair (Memory.read s.prog s.ip.toNat) (Memory.read s.prog (s.ip.toNat + 1)) = .ok i) :
    (∃ t, execUnder shamtOver i s = .next t ∧ IpFollows s t ∧ ∀ n, ¬ OverWideShift shamtOver s n) ∨
    (∃ n, execUnder shamtOver i s = .fault (.shiftAmount n) ∧ OverWideShift shamtOver s n) := by
  obtain ⟨hoperand, -, hjump⟩ := decodePair_ok_facts hd
  have advanced := advance_toNat_of_admissible adm s hf
  simp only [overWideShift_iff_of_decoded shamtOver hs hf hd]
  rcases execUnder_cases shamtOver i s with ⟨r, w, h, hw⟩ | ⟨v, rfl, ha, h⟩ | ⟨v, rfl, -, h⟩ | ⟨v, d, rfl, h⟩ |
    ⟨v, d, rfl, h⟩ | ⟨hv, h⟩ | ⟨x, hi, hx, hover, hl, h⟩
  · refine .inl ⟨_, h, ipFollows_of_running hs (.inl advanced), ?_⟩
    rintro n ⟨rfl, hi, x, hx, hl, -⟩
    obtain ⟨y, hy, hy' | hy'⟩ := hw hi
    · cases hx.symm.trans hy; omega
    · cases hy'
  · have target : (literalTarget v : CellIndex ipw).toNat = (Memory.read s.prog (s.ip.toNat + 1)).toNat :=
      (literalTarget_toNat_of_admissible adm v).trans (congrArg BitVec.toNat hoperand)
    exact .inl ⟨_, h, ipFollows_of_running hs (.inr ⟨hjump v rfl, ha, target⟩), by simp [isShift]⟩
  · exact .inl ⟨_, h, ipFollows_of_running hs (.inl advanced), by simp [isShift]⟩
  · exact .inl ⟨_, h, ipFollows_of_stop (by simp) rfl, by simp [isShift]⟩
  · exact .inl ⟨_, h, ipFollows_of_running hs (.inl advanced), by simp [isShift]⟩
  · refine .inl ⟨_, h, ipFollows_of_stop (by simp) rfl, ?_⟩
    rintro n ⟨-, -, x, hx, -⟩
    cases hx.symm.trans ((combo_eq_none_iff s i.operand).2 hv)
  · exact .inr ⟨_, h, hover, hi, x, hx, hl, rfl⟩

/-- While a run is in progress, a step of a machine of any admissible parameters answers a next state with ip where it
belongs, or stops at an over-wide shift, never both. -/
theorem stepUnder_of_running (adm : Config.Admissible xlen cellw lenMax ipw) (shamtOver : Config.ShamtOver)
    (s : State xlen cellw lenMax ipw) (hs : s.status = .running) :
    (∃ t, stepUnder s shamtOver = .next t ∧ IpFollows s t ∧ ∀ n, ¬ OverWideShift shamtOver s n) ∨
    (∃ n, stepUnder s shamtOver = .fault (.shiftAmount n) ∧ OverWideShift shamtOver s n) := by
  rcases stepUnder_cases shamtOver s with ⟨hn, -⟩ | ⟨-, ⟨hend, h⟩ | ⟨hlast, h⟩ | ⟨-, hop, h⟩ | ⟨hf, i, hd, h⟩⟩
  · exact absurd hs hn
  · refine .inl ⟨_, h, ipFollows_of_stop (by simp) rfl, ?_⟩
    rintro n ⟨-, -, hf, -⟩; omega
  · refine .inl ⟨_, h, ipFollows_of_stop (by simp) rfl, ?_⟩
    rintro n ⟨-, -, hf, -⟩; omega
  · refine .inl ⟨_, h, ipFollows_of_stop (by simp) rfl, ?_⟩
    rintro n ⟨-, -, -, hshift, -⟩; omega
  · rw [h]; exact execUnder_of_decoded adm shamtOver hs hf hd

/-- A step is there, the stop at an over-wide shift counted as one, exactly while a run is in progress. -/
theorem stepUnder_answers_iff_running (adm : Config.Admissible xlen cellw lenMax ipw) (shamtOver : Config.ShamtOver)
    (s : State xlen cellw lenMax ipw) :
    (∃ t, stepUnder s shamtOver = .next t) ∨ (∃ n, stepUnder s shamtOver = .fault (.shiftAmount n)) ↔
      s.status = .running := by
  constructor
  · intro h
    rcases stepUnder_cases shamtOver s with ⟨-, hno⟩ | ⟨hs, -⟩
    · simp [hno] at h
    · exact hs
  · intro hs
    rcases stepUnder_of_running adm shamtOver s hs with ⟨t, h, -⟩ | ⟨n, h, -⟩
    · exact .inl ⟨t, h⟩
    · exact .inr ⟨n, h⟩

/-- The model stops with a shift amount exactly at an over-wide shift by it. -/
theorem stepUnder_shiftAmount_iff (adm : Config.Admissible xlen cellw lenMax ipw) (shamtOver : Config.ShamtOver)
    (s : State xlen cellw lenMax ipw) (n : Nat) :
    stepUnder s shamtOver = .fault (.shiftAmount n) ↔ OverWideShift shamtOver s n := by
  by_cases hs : s.status = .running
  · rcases stepUnder_of_running adm shamtOver s hs with ⟨t, h, -, hno⟩ | ⟨m, h, hm⟩
    · simp [h, hno n]
    · rw [h]
      constructor
      · intro heq; cases heq; exact hm
      · intro hn; rw [hm.unique hn]
  · have hno : ¬ OverWideShift shamtOver s n := fun hn => hs hn.2.1
    simp [stepUnder_of_not_running shamtOver s hs, hno]

/-- ip never wraps: after a step it stands where `IpFollows` says, as a number. -/
theorem stepUnder_ipFollows (adm : Config.Admissible xlen cellw lenMax ipw) (shamtOver : Config.ShamtOver)
    (s t : State xlen cellw lenMax ipw) (h : stepUnder s shamtOver = .next t) : IpFollows s t := by
  have hs := (stepUnder_answers_iff_running adm shamtOver s).1 (.inl ⟨t, h⟩)
  rcases stepUnder_of_running adm shamtOver s hs with ⟨u, hu, hip, -⟩ | ⟨n, hn, -⟩
  · cases hu.symm.trans h; exact hip
  · cases hn.symm.trans h

/-- Settles O60: each part is a lemma above, about a machine of any admissible parameters. -/
theorem anyAdmissibleParameters : Obligations.AnyAdmissibleParameters :=
  ⟨stepUnder_decided, fun _ _ _ _ shamtOver adm =>
    ⟨shrUnder_eq shamtOver, fun s =>
      ⟨stepUnder_answers_iff_running adm shamtOver s, stepUnder_shiftAmount_iff adm shamtOver s,
        stepUnder_ipFollows adm shamtOver s⟩⟩⟩

end Sys2Proof.Machine
end

section
/-! The invariant of the block: it holds at power-on, every step and every host transaction keeps it, so it holds in every
reachable state (spec/10_state.md R15, R20, R22; spec/44_emit.md R85; spec/70_reset_and_hazards.md R102 to R107). -/
namespace Sys2Proof.Safety

open Sys2Proof.Machine

/-! ### What a step does to single fields -/

/-- How a step leaves a run: ended by a halt, a fault or a divergence, or going on with CAUSE and the information fields
as they were (spec/40_execution_cycle.md R60). -/
theorem step_ends_or_goes_on {s t : State} (h : step s = .next t) :
    t = s.haltEnd ∨ (∃ trap, t = s.raise trap) ∨ (∃ d, t = s.diverge d) ∨
      (t.status = .running ∧ t.cause = s.cause ∧ t.faultIp = s.faultIp ∧ t.faultVal = s.faultVal ∧
        t.divPos = s.divPos ∧ t.divDigit = s.divDigit) := by
  obtain ⟨hrun, ⟨-, rfl⟩ | ⟨-, rfl⟩ | ⟨-, -, rfl⟩ | ⟨-, -, -, rfl⟩ | ⟨-, -, x, -, -, rfl⟩ | ⟨-, -, x, -, -, rfl⟩ |
    ⟨-, -, -, rfl⟩ | ⟨-, -, -, rfl⟩ | ⟨-, -, -, -, -, r, w, rfl⟩⟩ := step_next_cases s t h
  · exact .inl rfl
  · exact .inr (.inl ⟨_, rfl⟩)
  · exact .inr (.inl ⟨_, rfl⟩)
  · exact .inr (.inl ⟨_, rfl⟩)
  · exact .inr (.inr (.inl ⟨_, rfl⟩))
  all_goals exact .inr (.inr (.inr ⟨hrun, rfl, rfl, rfl, rfl, rfl⟩))

/-- After a step ip is where it was, or at most LEN, or a cell value: an advance starts below LEN - 1, and a jump target is
one cell (spec/10_state.md R15). -/
theorem step_ip_cases {s t : State} (h : step s = .next t) :
    t.ip = s.ip ∨ t.ip.toNat ≤ s.len.val ∨ t.ip.toNat < 256 := by
  have advance_le (hf : Fetches s) : (s.ip + 2).toNat ≤ s.len.val := by
    rw [advance_toNat s hf]; exact hf.2
  have target_lt : (literalTarget (operandAt s) : CellIndex).toNat < 256 := by
    rw [literalTarget_toNat_of_admissible config_admissible]; exact (operandAt s).isLt
  obtain ⟨-, ⟨-, rfl⟩ | ⟨-, rfl⟩ | ⟨-, -, rfl⟩ | ⟨-, -, -, rfl⟩ | ⟨-, -, x, -, -, rfl⟩ | ⟨hf, -, x, -, -, rfl⟩ |
    ⟨-, -, -, rfl⟩ | ⟨hf, -, -, rfl⟩ | ⟨hf, -, -, -, -, r, w, rfl⟩⟩ := step_next_cases s t h
  · exact .inl rfl
  · exact .inl rfl
  · exact .inl rfl
  · exact .inl rfl
  · exact .inl rfl
  · exact .inr (.inl (advance_le hf))
  · exact .inr (.inr target_lt)
  · exact .inr (.inl (advance_le hf))
  · exact .inr (.inl (advance_le hf))

/-- A step leaves out as it was, or appends one digit that the VERIFY comparator did not turn down
(spec/44_emit.md R78, R80). -/
theorem step_out_cases {s t : State} (h : step s = .next t) :
    t.out = s.out ∨ ∃ x : Word, ¬ TurnedDown s x ∧ t.out = s.out ++ [x.mod8] := by
  obtain ⟨-, ⟨-, rfl⟩ | ⟨-, rfl⟩ | ⟨-, -, rfl⟩ | ⟨-, -, -, rfl⟩ | ⟨-, -, x, -, -, rfl⟩ | ⟨-, -, x, -, hx, rfl⟩ |
    ⟨-, -, -, rfl⟩ | ⟨-, -, -, rfl⟩ | ⟨-, -, -, -, -, r, w, rfl⟩⟩ := step_next_cases s t h
  · exact .inl rfl
  · exact .inl rfl
  · exact .inl rfl
  · exact .inl rfl
  · exact .inl rfl
  · exact .inr ⟨x, hx, rfl⟩
  all_goals exact .inl rfl

/-! ### CAUSE and the information fields (spec/10_state.md R20) -/

theorem trap_cause_ne_none (trap : Trap) : trap.cause ≠ .none := by
  cases trap <;> simp [Trap.cause]

/-- While a run is in progress there is no cause, and every information field is 0. -/
theorem CauseInv.cleared_of_running {s : State} (hc : CauseInv s) (hrun : s.status = .running) :
    s.cause = .none ∧ (s.faultIp = 0 ∧ s.faultVal = 0) ∧ s.divPos = 0 ∧ s.divDigit = 0 := by
  obtain ⟨hcause, hfault, hdiv⟩ := hc
  exact ⟨by simpa [hrun] using hcause, hfault (by simp [hrun]), hdiv (by simp [hrun])⟩

/-- With no cause and the information fields 0, all is as it should be in every status but FAULT. -/
theorem causeInv_of_cleared {s : State} (hs : s.status ≠ .fault) (hcause : s.cause = .none)
    (hfault : s.faultIp = 0 ∧ s.faultVal = 0) (hdiv : s.divPos = 0 ∧ s.divDigit = 0) : CauseInv s :=
  ⟨⟨fun h => absurd hcause h, fun h => absurd h hs⟩, fun _ => hfault, fun _ => hdiv⟩

theorem step_keeps_causeInv {s t : State} (hc : CauseInv s) (h : step s = .next t) : CauseInv t := by
  obtain ⟨hcause, hfault, hdiv⟩ := hc.cleared_of_running (step_next_cases s t h).1
  rcases step_ends_or_goes_on h with rfl | ⟨trap, rfl⟩ | ⟨d, rfl⟩ | ⟨hs, hcause', hfip, hfval, hdpos, hddigit⟩
  · exact causeInv_of_cleared (by simp) hcause hfault hdiv
  · exact ⟨by simp [trap_cause_ne_none], fun hne => absurd (State.raise_status s trap) hne, fun _ => hdiv⟩
  · exact ⟨by simp [hcause], fun _ => hfault, fun hne => absurd (State.diverge_status s d) hne⟩
  · refine causeInv_of_cleared (by simp [hs]) (hcause'.trans hcause) ?_ ?_
    · rw [hfip, hfval]; exact hfault
    · rw [hdpos, hddigit]; exact hdiv

/-- A step ends in FAULT only through the fault entry, which records ip and leaves it. -/
theorem step_faultIpInv {s t : State} (h : step s = .next t) : FaultIpInv t := by
  intro hfault
  rcases step_ends_or_goes_on h with rfl | ⟨trap, rfl⟩ | ⟨d, rfl⟩ | ⟨hs, -⟩
  · cases hfault
  · rfl
  · cases hfault
  · cases hs.symm.trans hfault

/-! ### ip (spec/10_state.md R15) -/

theorem step_keeps_ipInv {s t : State} (hip : IpInv s) (h : step s = .next t) : IpInv t := by
  unfold IpInv at *
  have hlen := s.len.isLt
  rcases step_ip_cases h with heq | hle | hlt
  · rw [heq]; exact hip
  · omega
  · omega

/-! ### Where a VERIFY run has emitted (spec/44_emit.md R85) -/

/-- `OutMatches` is a property of the program store, LEN and out alone. -/
theorem outMatches_congr {s t : State} (hp : t.prog = s.prog) (hl : t.len = s.len) (ho : t.out = s.out) :
    OutMatches t ↔ OutMatches s := by
  simp only [OutMatches, cellAt, hp, hl, ho]

/-- A digit that the comparator of a VERIFY run lets pass extends the match: it is the cell at position |out|, and there
is such a cell. -/
theorem outMatches_append {s : State} {x : Word} (hm : OutMatches s) (hverify : s.mode = .verify)
    (hx : ¬ TurnedDown s x) : OutMatches (s.append x.mod8) := by
  obtain ⟨-, hcells⟩ := hm
  have hroom : s.out.length < s.len.val := Nat.lt_of_not_le fun hle => hx ⟨hverify, .inl hle⟩
  have hcell : cellAt s s.out.length = x.toNat % 8 := Decidable.byContradiction fun hne => hx ⟨hverify, .inr hne⟩
  have hlength : (s.out ++ [x.mod8]).length ≤ s.len.val := by
    rw [List.length_append, List.length_singleton]; exact hroom
  refine ⟨hlength, fun j d hj => ?_⟩
  rw [State.append_out, List.getElem?_append] at hj
  split at hj
  case isTrue => exact hcells j d hj
  case isFalse hge =>
    obtain ⟨hlast, rfl⟩ : j - s.out.length = 0 ∧ x.mod8 = d := by
      simpa [List.getElem?_singleton] using hj
    obtain rfl : j = s.out.length := by omega
    rw [Word.mod8_toNat]; exact hcell

theorem step_keeps_outMatches {s t : State} (hverify : s.mode = .verify) (hm : OutMatches s)
    (h : step s = .next t) : OutMatches t := by
  obtain ⟨hp, hl, -⟩ := step_keeps_launchInputs s t h
  rcases step_out_cases h with ho | ⟨x, hx, ho⟩
  · exact (outMatches_congr hp hl ho).2 hm
  · exact (outMatches_congr (s := s.append x.mod8) hp hl ho).2 (outMatches_append hm hverify hx)

/-! ### Every step keeps the invariant -/

/-- Settles O50: each part of the invariant by its own lemma; the store, MODE and what has been loaded are launch inputs,
which no step writes. -/
theorem stepKeepsInv : Obligations.StepKeepsInv := by
  rintro s t ⟨hwf, hcause, -, hip, hloaded, hverify⟩ h
  have hrun : s.status ≠ .idle := by simp [(step_next_cases s t h).1]
  obtain ⟨hp, -, -, -, -, hmode, hld⟩ := step_keeps_launchInputs s t h
  refine ⟨hp ▸ hwf, step_keeps_causeInv hcause h, step_faultIpInv h, step_keeps_ipInv hip h, fun _ => ?_, fun hm _ => ?_⟩
  · rw [hld]; exact hloaded hrun
  · rw [hmode] at hm; exact step_keeps_outMatches hm (hverify hm hrun) h

end Sys2Proof.Safety
end

section
/-! The registers after an instruction: which of A, B, C and out it writes, and how long the values are (spec/10_state.md
R10, R12). -/
namespace Sys2Proof.Safety

open Sys2Proof.Machine

/-! ### Which register is written (spec/10_state.md R10) -/

/-- Settles O38: the cases of `exec_cases` name the instruction and the register it writes; every other case leaves A, B
and C, and the completed emit alone changes out. -/
theorem registerWriters : Obligations.RegisterWriters := by
  intro i s t h
  rcases exec_cases i s with ⟨r, w, hexec, hwriter⟩ | ⟨v, rfl, -, hexec⟩ | ⟨v, rfl, -, hexec⟩ | ⟨v, x, rfl, -, -, hexec⟩ |
    ⟨v, x, rfl, -, -, hexec⟩ | ⟨-, -, hexec⟩ <;> cases hexec.symm.trans h
  · rcases hwriter with ⟨v, x, rfl, rfl, -⟩ | ⟨v, rfl, rfl, -⟩ | ⟨v, x, rfl, rfl, -⟩ | ⟨v, rfl, rfl, -⟩ |
      ⟨v, x, rfl, rfl, -⟩ | ⟨v, x, rfl, rfl, -⟩ <;> simp [Instr.opcode]
  · simp
  · simp
  · simp
  · simp [Instr.opcode]
  · simp

/-! ### How long the registers are (spec/10_state.md R12) -/

/-- A value has at most `n` significant bits exactly when it is below 2^n. -/
theorem significantBits_le_iff (v n : Nat) : significantBits v ≤ n ↔ v < 2 ^ n := by
  unfold significantBits
  split
  case isTrue hv =>
    subst hv
    exact ⟨fun _ => Nat.two_pow_pos n, fun _ => Nat.zero_le n⟩
  case isFalse hv => rw [Nat.add_one_le_iff, Nat.log2_lt hv]

/-- Each of A, B and C has at most `n` significant bits. -/
def RegsFit (n : Nat) (s : State) : Prop := s.a.toNat < 2 ^ n ∧ s.b.toNat < 2 ^ n ∧ s.c.toNat < 2 ^ n

theorem regsFit_iff (n : Nat) (s : State) :
    RegsFit n s ↔ significantBits s.a.toNat ≤ n ∧ significantBits s.b.toNat ≤ n ∧ significantBits s.c.toNat ≤ n := by
  simp only [RegsFit, significantBits_le_iff]

theorem regsFit_writeReg {n : Nat} {s : State} (hs : RegsFit n s) (r : Reg) {w : Word} (hw : w.toNat < 2 ^ n) :
    RegsFit n (s.writeReg r w) := by
  obtain ⟨ha, hb, hc⟩ := hs
  cases r
  · exact ⟨hw, hb, hc⟩
  · exact ⟨ha, hw, hc⟩
  · exact ⟨ha, hb, hw⟩

/-- No instruction makes a register longer than `n` bits where the registers and a cell have at most `n`: a shift does not
lengthen, an exclusive or is as long as its longer side, and a digit is shorter than a cell. -/
theorem exec_keeps_regsFit {n : Nat} (hcell : 8 ≤ n) {i : Instr} {s t : State} (hs : RegsFit n s)
    (h : exec i s = .next t) : RegsFit n t := by
  have cells_fit : 2 ^ 8 ≤ 2 ^ n := Nat.pow_le_pow_right (by decide) hcell
  have shift_fits (amount : Word) : (s.a >>> amount.toNat).toNat < 2 ^ n := by
    rw [BitVec.toNat_ushiftRight]; exact Nat.lt_of_le_of_lt (Nat.shiftRight_le _ _) hs.1
  have literal_fits (v : Cell) : (literalWord v : Word).toNat < 2 ^ n := by
    have hv := v.isLt
    simp only [literalWord, BitVec.toNat_setWidth]; omega
  have digit_fits (x : Word) : (x.mod8.setWidth 64).toNat < 2 ^ n := by
    simp only [BitVec.toNat_setWidth, Word.mod8_toNat]; omega
  have ⟨_, hb, hc⟩ := hs
  rcases exec_cases i s with ⟨r, w, hexec, hwriter⟩ | ⟨v, -, -, hexec⟩ | ⟨v, -, -, hexec⟩ | ⟨v, x, -, -, -, hexec⟩ |
    ⟨v, x, -, -, -, hexec⟩ | ⟨-, -, hexec⟩ <;> cases hexec.symm.trans h
  · refine regsFit_writeReg hs r ?_
    rcases hwriter with ⟨v, x, -, -, -, rfl⟩ | ⟨v, -, -, rfl⟩ | ⟨v, x, -, -, -, rfl⟩ | ⟨v, -, -, rfl⟩ |
      ⟨v, x, -, -, -, rfl⟩ | ⟨v, x, -, -, -, rfl⟩
    · exact shift_fits x
    · rw [BitVec.toNat_xor]; exact Nat.xor_lt_two_pow hb (literal_fits v)
    · exact digit_fits x
    · rw [BitVec.toNat_xor]; exact Nat.xor_lt_two_pow hb hc
    · exact shift_fits x
    · exact shift_fits x
  all_goals exact hs

/-- Settles O39: `exec_keeps_regsFit` at the longest of A, B, C and a cell. -/
theorem registerLengthBound : Obligations.RegisterLengthBound := by
  intro i s t h bound
  have hs : RegsFit bound s := (regsFit_iff bound s).2 ⟨by omega, by omega, by omega⟩
  exact (regsFit_iff bound t).1 (exec_keeps_regsFit (by omega) hs h)

end Sys2Proof.Safety
end

section
/-! Power-on, the launch reset and the host's transactions, and what holds in every reachable state (spec/10_state.md R15,
R17, R18, R20, R22 to R24; spec/20_memory.md R28, R39; spec/70_reset_and_hazards.md R102 to R107). -/
namespace Sys2Proof.Machine

variable {xlen cellw lenMax ipw : Nat}

/-! ### What a host transaction answers, said once -/

/-- START is offered exactly outside a run and after a complete LOAD, and is the launch reset. -/
theorem hostStart_next_iff (s t : State xlen cellw lenMax ipw) :
    hostStart s = .next t ↔ s.status ≠ .running ∧ s.loaded.complete = true ∧ s.launch = t := by
  by_cases hs : s.status = .running <;> by_cases hl : s.loaded.complete = true <;> simp [hostStart, hs, hl]

/-- LOAD is offered exactly outside a run, and writes its inputs. -/
theorem hostLoad_next_iff (r : LoadRequest xlen cellw lenMax) (s t : State xlen cellw lenMax ipw) :
    hostLoad r s = .next t ↔ s.status ≠ .running ∧ s.loadInputs r = t := by
  by_cases hs : s.status = .running <;> simp [hostLoad, hs]

/-- Everything a host transaction that answers a next state can have done. -/
theorem hostMove_next_cases {m : HostMove} {s t : State} (h : hostMove m s = .next t) :
    (m = .powerOn ∧ t = State.reset) ∨ (∃ r, m = .load r ∧ s.status ≠ .running ∧ t = s.loadInputs r) ∨
      (m = .start ∧ s.status ≠ .running ∧ s.loaded.complete = true ∧ t = s.launch) := by
  cases m with
  | powerOn => cases h; exact .inl ⟨rfl, rfl⟩
  | load r =>
    obtain ⟨hs, rfl⟩ := (hostLoad_next_iff r s t).1 h
    exact .inr (.inl ⟨r, rfl, hs, rfl⟩)
  | start =>
    obtain ⟨hs, hl, rfl⟩ := (hostStart_next_iff s t).1 h
    exact .inr (.inr ⟨rfl, hs, hl, rfl⟩)

/-- The launched state is made of the launch inputs alone. -/
theorem launch_congr {s t : State xlen cellw lenMax ipw} (hp : s.prog = t.prog) (hl : s.len = t.len)
    (ha : s.aInit = t.aInit) (hb : s.bInit = t.bInit) (hc : s.cInit = t.cInit) (hm : s.mode = t.mode)
    (hld : s.loaded = t.loaded) : s.launch = t.launch := by
  simp only [State.launch, hp, hl, ha, hb, hc, hm, hld]

/-- A LOAD leaves the store in canonical form: a new program is written into an empty store. -/
theorem loadInputs_wf {s : State} (r : LoadRequest) (hs : Memory.wf s.prog = true) :
    Memory.wf (s.loadInputs r).prog = true := by
  cases hr : r.program with
  | none => rw [(s.loadInputs_prog_none r hr).1]; exact hs
  | some p =>
    rw [s.loadInputs_prog_some r p hr]
    have hfits := p.fits
    exact Memory.wf_writeCells [] 0 p.cells rfl (by omega)

/-- A machine that is not running has no step. -/
theorem step_of_not_running {s : State} (hs : s.status ≠ .running) : step s = .fault (.noStep s.status) := by
  rw [← stepUnder_decided]; exact stepUnder_of_not_running _ s hs

/-- CAUSE reads as 0 exactly when there is none (spec/10_state.md R20). -/
theorem Cause.code_eq_zero_iff (c : Cause) : c.code = 0 ↔ c = .none := by
  cases c <;> simp [Cause.code]

end Sys2Proof.Machine

namespace Sys2Proof.Safety

open Sys2Proof.Machine

/-- Settles O37: a step writes no launch input, and equal stores read alike. -/
theorem launchInputsKept : Obligations.LaunchInputsKept := by
  intro s t h
  obtain ⟨hp, hinputs⟩ := step_keeps_launchInputs s t h
  exact ⟨fun i => by rw [hp], hp, hinputs⟩

/-- Settles O41: STATUS = IDLE at power-on, so there is no step; nothing has been loaded, so there is no START. -/
theorem powerOnState : Obligations.PowerOnState :=
  ⟨rfl, rfl, step_of_not_running nofun, rfl⟩

/-- Settles O42: START, where it is offered, is `State.launch`. -/
theorem launchReset : Obligations.LaunchReset := fun s hs hl =>
  (hostStart_next_iff s s.launch).2 ⟨hs, hl, rfl⟩

/-- Settles O43: the launched state is a function of the launch inputs. -/
theorem launchForgetsTheLastRun : Obligations.LaunchForgetsTheLastRun := by
  intro s t u hp hl ha hb hc hm hld ht h
  obtain ⟨-, hcomplete, rfl⟩ := (hostStart_next_iff s u).1 h
  exact (hostStart_next_iff t _).2 ⟨ht, hld ▸ hcomplete, (launch_congr hp hl ha hb hc hm hld).symm⟩

/-! ### The invariant under the host's transactions -/

/-- Settles O52: at power-on the store is empty, every information field is 0, and STATUS = IDLE. -/
theorem resetHasInv : Obligations.ResetHasInv :=
  ⟨rfl, causeInv_of_cleared nofun rfl ⟨rfl, rfl⟩ ⟨rfl, rfl⟩, nofun, Nat.zero_le _, fun h => absurd rfl h,
    fun _ h => absurd rfl h⟩

/-- A launch clears CAUSE and the information fields, begins at cell 0, and has emitted nothing. -/
theorem inv_launch {s : State} (hwf : Memory.wf s.prog = true) (hl : s.loaded.complete = true) : Inv s.launch :=
  ⟨hwf, causeInv_of_cleared nofun rfl ⟨rfl, rfl⟩ ⟨rfl, rfl⟩, nofun, Nat.zero_le _, fun _ => hl,
    fun _ _ => ⟨Nat.zero_le _, nofun⟩⟩

/-- A LOAD clears CAUSE and the information fields and leaves ip; in IDLE nothing is asked of out or of what has been
loaded. -/
theorem inv_loadInputs {s : State} (r : LoadRequest) (hwf : Memory.wf s.prog = true) (hip : IpInv s) :
    Inv (s.loadInputs r) :=
  ⟨loadInputs_wf r hwf, causeInv_of_cleared nofun rfl ⟨rfl, rfl⟩ ⟨rfl, rfl⟩, nofun, hip, fun h => absurd rfl h,
    fun _ h => absurd rfl h⟩

/-- Settles O51: one lemma per transaction. -/
theorem hostMovesKeepInv : Obligations.HostMovesKeepInv := by
  rintro m s t ⟨hwf, -, -, hip, -, -⟩ h
  rcases hostMove_next_cases h with ⟨-, rfl⟩ | ⟨r, -, -, rfl⟩ | ⟨-, -, hl, rfl⟩
  · exact resetHasInv
  · exact inv_loadInputs r hwf hip
  · exact inv_launch hwf hl

/-- The invariant holds in every reachable state. -/
theorem reachable_inv {s : State} (h : Reachable s) : Inv s := by
  induction h with
  | powerOn => exact resetHasInv
  | host m s t _ hmove ih => exact hostMovesKeepInv m s t ih hmove
  | step s t _ hstep ih => exact stepKeepsInv s t ih hstep

/-- Settles O53: the parts of the invariant that the statement names. -/
theorem reachableStatesAreSound : Obligations.ReachableStatesAreSound := by
  intro s h
  obtain ⟨hwf, ⟨hcause, -, -⟩, -, hip, -, hverify⟩ := reachable_inv h
  exact ⟨(not_congr (Cause.code_eq_zero_iff s.cause)).trans hcause, hip, hwf, hverify⟩

end Sys2Proof.Safety
end

section
/-! What a step does not read: the cells from LEN on, the initial values and what has been loaded (spec/20_memory.md R34,
spec/40_execution_cycle.md R62). Replacing them commutes with every operation of the cycle, and so with the step. -/
namespace Sys2Proof.Machine

variable {xlen cellw lenMax ipw : Nat}

/-! ### Replacing what no step reads -/

/-- `s` with the store, the initial values and the loaded flags of `t`. -/
def State.withUnread (s t : State xlen cellw lenMax ipw) : State xlen cellw lenMax ipw :=
  { s with prog := t.prog, aInit := t.aInit, bInit := t.bInit, cInit := t.cInit, loaded := t.loaded }

@[simp] theorem State.withUnread_a (s t : State xlen cellw lenMax ipw) : (s.withUnread t).a = s.a := rfl
@[simp] theorem State.withUnread_ip (s t : State xlen cellw lenMax ipw) : (s.withUnread t).ip = s.ip := rfl
@[simp] theorem State.withUnread_out (s t : State xlen cellw lenMax ipw) : (s.withUnread t).out = s.out := rfl
@[simp] theorem State.withUnread_status (s t : State xlen cellw lenMax ipw) : (s.withUnread t).status = s.status := rfl
@[simp] theorem State.withUnread_prog (s t : State xlen cellw lenMax ipw) : (s.withUnread t).prog = t.prog := rfl
@[simp] theorem State.withUnread_len (s t : State xlen cellw lenMax ipw) : (s.withUnread t).len = s.len := rfl
@[simp] theorem State.withUnread_mode (s t : State xlen cellw lenMax ipw) : (s.withUnread t).mode = s.mode := rfl

/-- The stores of `s` and `t` hold the same cells below the LEN of `s`. -/
def CellsAgree (s t : State xlen cellw lenMax ipw) : Prop :=
  ∀ i, i < s.len.val → Memory.read s.prog i = Memory.read t.prog i

/-- An outcome with its next state, where it has one, passed through `f`. -/
def mapNext {σ φ ρ : Type} (f : σ → σ) : Host.Outcome σ φ ρ → Host.Outcome σ φ ρ
  | .next s => .next (f s)
  | .fault r => .fault r
  | .refused r => .refused r

/-! ### What the cycle reads of the state -/

theorem memRead_withUnread {s t : State xlen cellw lenMax ipw} (h : CellsAgree s t) (i : Nat) :
    (s.withUnread t).memRead i = s.memRead i := by
  by_cases hi : i < s.len.val
  · simp [State.memRead, hi, h i hi]
  · simp [State.memRead, hi]

theorem fetch_withUnread {s t : State xlen cellw lenMax ipw} (h : CellsAgree s t) :
    (s.withUnread t).fetch = s.fetch := by
  simp only [State.fetch, memRead_withUnread h, State.withUnread_ip]

/-- The VERIFY comparator reads MODE, out and one cell below LEN. -/
theorem diverges_withUnread {s t : State xlen cellw lenMax ipw} (h : CellsAgree s t) (d : Digit) :
    (s.withUnread t).diverges d = s.diverges d := by
  simp only [State.diverges, memRead_withUnread h, State.withUnread_mode, State.withUnread_out]

theorem combo_withUnread (s t : State xlen cellw lenMax ipw) (v : Cell cellw) :
    combo (s.withUnread t) v = combo s v := by
  have heval : ComboSource.eval (cellw := cellw) (s.withUnread t) = ComboSource.eval s := by
    funext source
    cases source with
    | value v => rfl
    | register r => cases r <;> rfl
  simp only [combo, heval]

/-! ### The meanings -/

/-- An instruction with a combo operand commutes with the replacement where what it does with the operand's value does. -/
theorem withCombo_withUnread {s t : State xlen cellw lenMax ipw} (v : Cell cellw)
    {body body' : Word xlen → Host.Outcome (State xlen cellw lenMax ipw) Fault Refusal}
    (hbody : ∀ x, body' x = mapNext (·.withUnread t) (body x)) :
    withCombo (s.withUnread t) v body' = mapNext (·.withUnread t) (withCombo s v body) := by
  unfold withCombo
  rw [combo_withUnread]
  cases combo s v with
  | some x => exact hbody x
  | none => rfl

theorem shiftInto_withUnread (dest : Reg) (v : Cell cellw) (s t : State xlen cellw lenMax ipw) :
    shiftInto dest v (s.withUnread t) = mapNext (·.withUnread t) (shiftInto dest v s) := by
  refine withCombo_withUnread v fun amount => ?_
  simp only [shrUnder_decided, State.withUnread_a]
  rfl

theorem execEmit_withUnread {s t : State xlen cellw lenMax ipw} (h : CellsAgree s t) (v : Cell cellw) :
    execEmit v (s.withUnread t) = mapNext (·.withUnread t) (execEmit v s) := by
  refine withCombo_withUnread v fun x => ?_
  rw [diverges_withUnread h]
  cases s.diverges x.mod8 <;> rfl

/-- The jump's condition reads A, which the replacement leaves. -/
theorem execJumpIfANonzero_withUnread (v : Cell cellw) (s t : State xlen cellw lenMax ipw) :
    execJumpIfANonzero v (s.withUnread t) = mapNext (·.withUnread t) (execJumpIfANonzero v s) := by
  unfold execJumpIfANonzero State.aNonzero
  rw [State.withUnread_a]
  split <;> rfl

theorem exec_withUnread {s t : State} (h : CellsAgree s t) (i : Instr) :
    exec i (s.withUnread t) = mapNext (·.withUnread t) (exec i s) := by
  cases i with
  | shiftA v => exact shiftInto_withUnread .a v s t
  | xorBLiteral v => rfl
  | storeBMod8 v => exact withCombo_withUnread v fun _ => rfl
  | jumpIfANonzero v => exact execJumpIfANonzero_withUnread v s t
  | xorBC v => rfl
  | emit v => exact execEmit_withUnread h v
  | shiftBFromA v => exact shiftInto_withUnread .b v s t
  | shiftCFromA v => exact shiftInto_withUnread .c v s t

/-! ### The step -/

theorem cycle_withUnread {s t : State} (h : CellsAgree s t) :
    cycle exec (s.withUnread t) = mapNext (·.withUnread t) (cycle exec s) := by
  unfold cycle
  rw [fetch_withUnread h]
  cases s.fetch with
  | pastEnd => rfl
  | operandMissing => rfl
  | pair opcode operand =>
    cases hd : decodePair opcode operand with
    | ok i => simpa only [hd] using exec_withUnread h i
    | error e => simp only [hd]; rfl

/-- A step commutes with replacing what it does not read. -/
theorem step_withUnread {s t : State} (h : CellsAgree s t) :
    step (s.withUnread t) = mapNext (·.withUnread t) (step s) := by
  unfold step cycleWhenRunning
  rw [State.withUnread_status]
  split
  · exact cycle_withUnread h
  · rfl

end Sys2Proof.Machine

namespace Sys2Proof.Safety

open Sys2Proof.Machine

/-- A program cannot tell two states apart exactly when their programs agree and one is the other with what no step reads
replaced. -/
theorem sameForStep_iff (s t : State) : SameForStep s t ↔ CellsAgree s t ∧ t = s.withUnread t := Iff.rfl

/-- Settles O40: the step of `t` is that of `s` with what no step reads replaced, and the programs still agree, since a step
writes neither the store nor LEN. -/
theorem stepDependsOnlyOn : Obligations.StepDependsOnlyOn := by
  intro s t s' hst h
  obtain ⟨hcells, ht⟩ := (sameForStep_iff s t).1 hst
  obtain ⟨hp, hl, -⟩ := step_keeps_launchInputs s s' h
  have hcells' : CellsAgree s' (s'.withUnread t) := fun i hi => by
    rw [hp]; exact hcells i (hl ▸ hi)
  have hstep : step t = .next (s'.withUnread t) :=
    calc step t = step (s.withUnread t) := congrArg step ht
      _ = mapNext (·.withUnread t) (step s) := step_withUnread hcells
      _ = .next (s'.withUnread t) := congrArg (mapNext (·.withUnread t)) h
  exact ⟨s'.withUnread t, hstep, (sameForStep_iff s' _).2 ⟨hcells', rfl⟩⟩

end Sys2Proof.Safety
end

section
/-! Decoding and encoding agree, for one instruction, for a sequence of them and for assembly text (spec/30_encoding.md
R40, R41, R44, R47, R54). -/
namespace Sys2Proof

/-! ### One instruction -/

/-- At least two cells decode by the first two, and the cells after these are left. -/
theorem decode_cons_cons_ok_iff (opcode operand : Cell) (cells : List Cell) (i : Instr) (rest : List Cell) :
    decode (opcode :: operand :: cells) = .ok (i, rest) ↔ decodePair opcode operand = .ok i ∧ cells = rest := by
  cases hd : decodePair opcode operand with
  | ok j => simp only [decode, hd, Except.ok.injEq, Prod.mk.injEq]
  | error e => simp only [decode, hd, reduceCtorEq, false_and]

/-- A list begins with the encoding of an instruction exactly when its first two cells are opcode and operand. -/
theorem cons_cons_eq_encode_append_iff (opcode operand : Cell) (cells : List Cell) (i : Instr) (rest : List Cell) :
    opcode :: operand :: cells = encode i ++ rest ↔ decodePair opcode operand = .ok i ∧ cells = rest := by
  rw [decodePair_ok_iff]
  simp only [encode, List.cons_append, List.nil_append, List.cons.injEq]
  constructor
  · rintro ⟨rfl, rfl, rfl⟩
    exact ⟨⟨rfl, rfl⟩, rfl⟩
  · rintro ⟨⟨rfl, rfl⟩, rfl⟩
    exact ⟨rfl, rfl, rfl⟩

/-- Cells decode to an instruction exactly when they begin with its encoding. -/
theorem decode_ok_iff (cells : List Cell) (i : Instr) (rest : List Cell) :
    decode cells = .ok (i, rest) ↔ cells = encode i ++ rest := by
  match cells with
  | [] => exact ⟨nofun, nofun⟩
  | [_] => exact ⟨nofun, nofun⟩
  | opcode :: operand :: cells' => rw [decode_cons_cons_ok_iff, cons_cons_eq_encode_append_iff]

/-- Settles O1: the two directions of `decode_ok_iff`. -/
theorem decodeEncodeAgree : Obligations.DecodeEncodeAgree :=
  ⟨fun i rest => (decode_ok_iff _ i rest).2 rfl, fun cells i rest => (decode_ok_iff cells i rest).1⟩

/-- Settles O2: each word is evaluated. -/
theorem knownWordsDecode : Obligations.KnownWordsDecode :=
  ⟨rfl, rfl, rfl, rfl, rfl, rfl, rfl, rfl, rfl⟩

/-! ### The operand kind (spec/30_encoding.md R44) -/

theorem kind_eq_literal_iff (i : Instr) : i.kind = .literal ↔ i.opcode.toNat = 1 ∨ i.opcode.toNat = 3 := by
  cases i <;> simp [Instr.kind, Instr.opcode]

theorem kind_eq_ignored_iff (i : Instr) : i.kind = .ignored ↔ i.opcode.toNat = 4 := by
  cases i <;> simp [Instr.kind, Instr.opcode]

/-- Settles O3: a pair that decodes to `i` has the opcode of `i`, which tells its kind. -/
theorem operandKindPerOpcode : Obligations.OperandKindPerOpcode := by
  intro opcode operand i hd
  obtain ⟨rfl, -⟩ := (decodePair_ok_iff _ _ _).1 hd
  exact ⟨(Safety.comboOpcode_iff_kind i).symm, kind_eq_literal_iff i, kind_eq_ignored_iff i⟩

/-! ### A sequence of instructions -/

/-- A program decodes pairwise: the first pair is its first instruction, the cells after it are the others. -/
theorem decodeProgram_cons_cons_ok_iff (opcode operand : Cell) (rest : List Cell) (is : List Instr) :
    decodeProgram (opcode :: operand :: rest) = .ok is ↔
      ∃ i js, decodePair opcode operand = .ok i ∧ decodeProgram rest = .ok js ∧ i :: js = is := by
  constructor
  · intro h
    cases hd : decodePair opcode operand with
    | error e => simp only [decodeProgram, hd, reduceCtorEq] at h
    | ok i =>
      cases hr : decodeProgram rest with
      | error e => simp only [decodeProgram, hd, hr, reduceCtorEq] at h
      | ok js => exact ⟨i, js, rfl, rfl, by simpa only [decodeProgram, hd, hr, Except.ok.injEq] using h⟩
  · rintro ⟨i, js, hd, hr, rfl⟩
    simp only [decodeProgram, hd, hr]

/-- Cells decode to a list of instructions exactly when they are its encoding. -/
theorem decodeProgram_ok_iff (cells : List Cell) (is : List Instr) :
    decodeProgram cells = .ok is ↔ encodeProgram is = cells := by
  match cells, is with
  | [], [] => exact ⟨fun _ => rfl, fun _ => rfl⟩
  | [], _ :: _ => exact ⟨nofun, nofun⟩
  | [_], [] => exact ⟨nofun, nofun⟩
  | [_], _ :: _ => exact ⟨nofun, nofun⟩
  | opcode :: operand :: rest, is =>
    rw [decodeProgram_cons_cons_ok_iff]
    constructor
    · rintro ⟨i, js, hd, hr, rfl⟩
      have hencode := (cons_cons_eq_encode_append_iff opcode operand rest i rest).2 ⟨hd, rfl⟩
      rw [hencode, ← (decodeProgram_ok_iff rest js).1 hr]
      rfl
    · intro h
      cases is with
      | nil => cases h
      | cons i js =>
        obtain ⟨hd, hrest⟩ := (cons_cons_eq_encode_append_iff opcode operand rest i (encodeProgram js)).1 h.symm
        exact ⟨i, js, hd, (decodeProgram_ok_iff rest js).2 hrest.symm, rfl⟩

/-- Settles O5: the two directions of `decodeProgram_ok_iff`. -/
theorem encodeProgramRoundTrip : Obligations.EncodeProgramRoundTrip :=
  ⟨fun is => (decodeProgram_ok_iff _ is).2 rfl, fun cells is => (decodeProgram_ok_iff cells is).1⟩

end Sys2Proof

namespace Sys2Proof.Machine

/-! ### Assembly text (spec/30_encoding.md R54) -/

/-- Either mnemonic of an instruction with a written operand assembles to what its opcode and the operand's cell decode
to. -/
theorem assemblePair_of_name {name : String} {i : Instr} (hname : mnemonic i = name ∨ shortMnemonic i = name)
    (operand : OperandText) :
    assemblePair name operand = (operand.cell i.kind).bind fun v => (decodePair i.opcode v).toOption := by
  rcases hname with rfl | rfl
  · cases i <;> rfl
  · cases i <;> rfl

theorem decodePair_toOption_eq_some_iff (opcode operand : Cell) (i : Instr) :
    (decodePair opcode operand).toOption = some i ↔ i.opcode = opcode ∧ i.operand = operand := by
  rw [← decodePair_ok_iff]
  cases decodePair opcode operand <;> simp [Except.toOption]

/-- A cell written as a number is that cell, in a position of any kind. -/
@[simp] theorem number_toNat_cell (v : Cell) (kind : OperandKind) : (OperandText.number v.toNat).cell kind = some v := by
  have hv : v.toNat < 256 := v.isLt
  simp [OperandText.cell, hv]

/-- The cell that a register letter stands for in a combo position. -/
def letterCell : Reg → Cell
  | .a => 4
  | .b => 5
  | .c => 6

/-- A register letter has a cell in a combo position and nowhere else. -/
theorem letter_cell_eq_some_iff (r : Reg) (kind : OperandKind) (v : Cell) :
    (OperandText.letter r).cell kind = some v ↔ kind = .combo ∧ letterCell r = v := by
  cases kind <;> cases r <;> simp [OperandText.cell, letterCell]

/-- Either mnemonic of an instruction, with its operand in decimal, assembles to it. -/
theorem assemblePair_number {name : String} {i : Instr} (hname : mnemonic i = name ∨ shortMnemonic i = name) :
    assemblePair name (.number i.operand.toNat) = some i := by
  rw [assemblePair_of_name hname, number_toNat_cell]
  exact (decodePair_toOption_eq_some_iff _ _ i).2 ⟨rfl, rfl⟩

/-- A mnemonic with a register letter assembles exactly where it takes a combo operand, to the instruction of that
mnemonic with the register's cell. -/
theorem assemblePair_letter_iff (i j : Instr) (r : Reg) :
    assemblePair (mnemonic i) (.letter r) = some j ↔
      i.kind = .combo ∧ j.opcode = i.opcode ∧ j.operand = letterCell r := by
  rw [assemblePair_of_name (.inl rfl), Option.bind_eq_some_iff]
  simp only [letter_cell_eq_some_iff, decodePair_toOption_eq_some_iff]
  constructor
  · rintro ⟨_, ⟨hkind, rfl⟩, hj⟩
    exact ⟨hkind, hj⟩
  · rintro ⟨hkind, hj⟩
    exact ⟨letterCell r, ⟨hkind, rfl⟩, hj⟩

/-- There is an instruction of every opcode with every operand cell. -/
theorem exists_opcode_operand (i : Instr) (v : Cell) : ∃ j : Instr, j.opcode = i.opcode ∧ j.operand = v := by
  obtain ⟨j, hj⟩ := decodePair_ok_of_le i.opcode v i.opcode_le
  exact ⟨j, (decodePair_ok_iff _ _ _).1 hj⟩

/-- The opcodes 0 to 7 have the mnemonics of R54 in its order. -/
theorem mnemonics_in_opcode_order (opcode : Fin 8) (v : Cell) :
    ∃ i, decodePair (BitVec.ofNat 8 opcode.val) v = .ok i ∧
      mnemonic i = ["shift-A", "xor-B-literal", "store-B-mod8", "jump-if-A-nonzero", "xor-B-C", "emit", "shift-B-from-A",
        "shift-C-from-A"][opcode.val] ∧
      shortMnemonic i = ["adv", "bxl", "bst", "jnz", "bxc", "out", "bdv", "cdv"][opcode.val] := by
  match opcode with
  | 0 => exact ⟨.shiftA v, rfl, rfl, rfl⟩
  | 1 => exact ⟨.xorBLiteral v, rfl, rfl, rfl⟩
  | 2 => exact ⟨.storeBMod8 v, rfl, rfl, rfl⟩
  | 3 => exact ⟨.jumpIfANonzero v, rfl, rfl, rfl⟩
  | 4 => exact ⟨.xorBC v, rfl, rfl, rfl⟩
  | 5 => exact ⟨.emit v, rfl, rfl, rfl⟩
  | 6 => exact ⟨.shiftBFromA v, rfl, rfl, rfl⟩
  | 7 => exact ⟨.shiftCFromA v, rfl, rfl, rfl⟩

/-- Settles O6: a name with a number is `assemblePair_number`, a name with a letter `assemblePair_letter_iff`. -/
theorem assemblerMnemonics : Obligations.AssemblerMnemonics := by
  refine ⟨fun v => ?_, fun v => ?_, mnemonics_in_opcode_order,
    fun i => ⟨assemblePair_number (.inl rfl), assemblePair_number (.inr rfl)⟩, fun i r => ?_, fun i j r h => ?_⟩
  · have assembles (i : Instr) := assemblePair_number (i := i) (.inl rfl)
    exact ⟨assembles (.shiftA v), assembles (.xorBLiteral v), assembles (.storeBMod8 v), assembles (.jumpIfANonzero v),
      assembles (.xorBC v), assembles (.emit v), assembles (.shiftBFromA v), assembles (.shiftCFromA v)⟩
  · have assembles (i : Instr) := assemblePair_number (i := i) (.inr rfl)
    exact ⟨assembles (.shiftA v), assembles (.xorBLiteral v), assembles (.storeBMod8 v), assembles (.jumpIfANonzero v),
      assembles (.xorBC v), assembles (.emit v), assembles (.shiftBFromA v), assembles (.shiftCFromA v)⟩
  · simp only [assemblePair_letter_iff]
    obtain ⟨j, hj⟩ := exists_opcode_operand i (letterCell r)
    exact ⟨fun ⟨_, hkind, _⟩ => hkind, fun hkind => ⟨j, hkind, hj⟩⟩
  · obtain ⟨-, hopcode, hoperand⟩ := (assemblePair_letter_iff i j r).1 h
    exact ⟨hopcode, by rw [hoperand]; cases r <;> rfl⟩

end Sys2Proof.Machine
end

section
/-! Operands in execution: what a combo cell and a literal are worth, and which opcodes raise InvalidCombo and InvalidOpcode
(spec/30_encoding.md R45 to R52; spec/60_exceptions.md R87 to R89). -/
namespace Sys2Proof.Safety

open Sys2Proof.Machine

/-! ### Values of operands -/

/-- Settles O7: one lemma per range of combo cells. -/
theorem comboResolves : Obligations.ComboResolves := by
  intro s v
  refine ⟨fun x => ?_, combo_eq_none_iff s v⟩
  rcases (by omega : v.toNat ≤ 3 ∨ v.toNat = 4 ∨ v.toNat = 5 ∨ v.toNat = 6 ∨ 7 ≤ v.toNat) with hv | hv | hv | hv | hv
  · have hvalue : (v.setWidth 64 : Word) = x ↔ x.toNat = v.toNat := by
      rw [← BitVec.toNat_inj, BitVec.toNat_setWidth]; omega
    rw [combo_small s v hv, Option.some_inj, hvalue]
    unfold ComboIs; omega
  · simp [combo_a s v hv, ComboIs, hv, eq_comm]
  · simp [combo_b s v hv, ComboIs, hv, eq_comm]
  · simp [combo_c s v hv, ComboIs, hv, eq_comm]
  · rw [(combo_eq_none_iff s v).2 hv]
    simp only [reduceCtorEq, false_iff, ComboIs]; omega

/-- The literal of opcode 1 is the cell's value. -/
theorem literalWord_toNat (v : Cell) : (literalWord v : Word).toNat = v.toNat := by
  rw [literalWord, BitVec.toNat_setWidth]; omega

/-! ### What an instruction raises -/

/-- A combo cell of 7 or more raises InvalidCombo, whatever the instruction would do with a value. -/
theorem withCombo_of_invalid (s : State) {v : Cell} (hv : 7 ≤ v.toNat)
    (body : Word → Host.Outcome State Fault Refusal) :
    withCombo s v body = .next (s.raise (.invalidCombo v)) := by
  rw [withCombo, (combo_eq_none_iff s v).2 hv]

/-- An instruction with a combo operand resolves it before anything else, so an operand cell of 7 or more raises
InvalidCombo. -/
theorem exec_of_invalid_combo {i : Instr} (s : State) (hkind : i.kind = .combo) (hv : 7 ≤ i.operand.toNat) :
    exec i s = .next (s.raise (.invalidCombo i.operand)) := by
  cases i with
  | shiftA v => exact withCombo_of_invalid s hv _
  | storeBMod8 v => exact withCombo_of_invalid s hv _
  | emit v => exact withCombo_of_invalid s hv _
  | shiftBFromA v => exact withCombo_of_invalid s hv _
  | shiftCFromA v => exact withCombo_of_invalid s hv _
  | xorBLiteral v => cases hkind
  | jumpIfANonzero v => cases hkind
  | xorBC v => cases hkind

/-- An instruction without a combo operand completes in every state, with STATUS and CAUSE as they were. -/
theorem exec_of_not_combo {i : Instr} (s : State) (hkind : i.kind ≠ .combo) :
    ∃ t, exec i s = .next t ∧ t.status = s.status ∧ t.cause = s.cause := by
  rcases exec_cases i s with ⟨r, w, h, -⟩ | ⟨v, -, -, h⟩ | ⟨v, -, -, h⟩ | ⟨v, x, rfl, -⟩ | ⟨v, x, rfl, -⟩ | ⟨hcombo, -⟩
  · exact ⟨_, h, rfl, rfl⟩
  · exact ⟨_, h, rfl, rfl⟩
  · exact ⟨_, h, rfl, rfl⟩
  · exact absurd rfl hkind
  · exact absurd rfl hkind
  · exact absurd hcombo hkind

/-- Settles O9: the five opcodes are those of combo kind. -/
theorem invalidComboRaised : Obligations.InvalidComboRaised := by
  refine ⟨rfl, fun i s hop hv => ?_, fun i s t hop h => ?_⟩
  · exact exec_of_invalid_combo s ((comboOpcode_iff_kind i).1 hop) hv
  · obtain ⟨u, hu, hkept⟩ := exec_of_not_combo s (mt (comboOpcode_iff_kind i).2 hop)
    cases hu.symm.trans h
    exact hkept

/-- Settles O8: opcodes 1 and 3 have no combo operand, so they complete; opcode 1 writes B, opcode 3 jumps. -/
theorem literalIsRawValue : Obligations.LiteralIsRawValue := by
  intro s v
  refine ⟨literalWord_toNat v, literalTarget_toNat_of_admissible config_admissible v, ⟨_, rfl, rfl, rfl, rfl⟩, ?_⟩
  rcases execJumpIfANonzero_cases v s with ⟨-, h⟩ | ⟨ha, h⟩
  · exact ⟨_, h, rfl, rfl, fun _ => rfl⟩
  · exact ⟨_, h, rfl, rfl, fun hne => absurd ha hne⟩

/-! ### What a step raises before it executes -/

/-- At ip = LEN - 1 a step raises FetchOutOfRange, whatever the cell there (spec/60_exceptions.md R89). -/
theorem step_of_operand_missing {s : State} (hs : s.status = .running) (hlast : s.ip.toNat + 1 = s.len.val) :
    step s = .next (s.raise .fetchOutOfRange) := by
  rcases step_cases s with ⟨hn, -⟩ | ⟨-, ⟨hend, -⟩ | ⟨-, h⟩ | ⟨hf, -⟩ | ⟨hf, -⟩⟩
  · exact absurd hs hn
  · omega
  · exact h
  · omega
  · omega

/-- A fetched opcode cell of 8 or more makes a step raise InvalidOpcode: nothing decodes to such an opcode. -/
theorem step_of_invalid_opcode {s : State} (hf : Fetches s) (hop : 8 ≤ opcodeAt s) :
    step s = .next (s.raise (.invalidOpcode (Memory.read s.prog s.ip.toNat))) := by
  obtain ⟨hs, hin⟩ := hf
  rcases step_cases s with ⟨hn, -⟩ | ⟨-, ⟨hend, -⟩ | ⟨hlast, -⟩ | ⟨-, -, h⟩ | ⟨-, i, hd, -⟩⟩
  · exact absurd hs hn
  · omega
  · omega
  · exact h
  · have hle := i.opcode_le
    rw [((decodePair_ok_iff _ _ _).1 hd).1] at hle
    unfold opcodeAt cellAt at hop
    omega

/-- Settles O27: `step_of_invalid_opcode`; the fault entry writes the four fields of `faulted`. -/
theorem invalidOpcodeRaised : Obligations.InvalidOpcodeRaised :=
  ⟨rfl, fun _ hf hop => step_of_invalid_opcode hf hop⟩

/-- Settles O10: the meaning of opcode 4 does not mention the operand cell, which the fetch still asks for. -/
theorem xorBCOperandIgnored : Obligations.XorBCOperandIgnored :=
  ⟨fun _ _ _ => rfl, fun s v => exec_of_not_combo s (i := .xorBC v) nofun,
    fun _ hs hlast _ => step_of_operand_missing hs hlast⟩

end Sys2Proof.Safety
end

section
/-! The execution cycle: when the machine steps, which event of a step comes first, what a step can change, where ip stands
after it, and what a run delivers (spec/40_execution_cycle.md R55 to R65). -/
namespace Sys2Proof.Machine

/-! ### Every instruction answers a next state -/

/-- Under the decided SHAMT_OVER no instruction stops the model. -/
theorem exec_answers (i : Instr) (s : State) : ∃ t, exec i s = .next t := by
  rcases exec_cases i s with ⟨r, w, h, -⟩ | ⟨v, -, -, h⟩ | ⟨v, -, -, h⟩ | ⟨v, x, -, -, -, h⟩ | ⟨v, x, -, -, -, h⟩ |
    ⟨-, -, h⟩
  all_goals exact ⟨_, h⟩

/-! ### The instruction placed for the next fetch (log entries 1 and 8) -/

/-- The place of the instruction leaves room for two cells in the store. -/
theorem State.fetchPlace_add_two_le (s : State) : s.fetchPlace + 2 ≤ 256 := by
  unfold State.fetchPlace
  split <;> omega

theorem State.withFetchWord_ip_toNat (s : State) (nbits w : Nat) :
    (s.withFetchWord nbits w).ip.toNat = s.fetchPlace := by
  have hplace := s.fetchPlace_add_two_le
  exact (BitVec.toNat_ofNat s.fetchPlace 9).trans (Nat.mod_eq_of_lt (by omega))

/-- The program reaches over both cells of the instruction placed. -/
theorem State.fetchPlace_lt_withFetchWord_len (s : State) (nbits w : Nat) :
    s.fetchPlace + 1 < (s.withFetchWord nbits w).len.val := by
  have hplace := s.fetchPlace_add_two_le
  unfold State.withFetchWord
  dsimp only
  split
  case isTrue => rw [Fin.val_ofNat, Nat.mod_eq_of_lt (by omega)]; omega
  case isFalse hlen => omega

/-- The cells of the table word stand in the store from the place on. -/
theorem State.read_withFetchWord {s : State} (hwf : Memory.wf s.prog = true) (nbits w : Nat) {j : Nat} {x : Cell}
    (hx : (tableCells nbits w)[j]? = some x) :
    Memory.read (s.withFetchWord nbits w).prog (s.fetchPlace + j) = x := by
  have hread := Memory.read_writeCells s.prog s.fetchPlace (s.fetchPlace + j) (tableCells nbits w) hwf
    s.fetchPlace_add_two_le
  rwa [if_pos (Nat.le_add_right _ _), Nat.add_sub_cancel_left, hx] at hread

/-- What a table word decodes to is what its two cells decode to. -/
theorem decodePair_of_decodeTableWord {nbits w : Nat} {i : Instr} (h : decodeTableWord nbits w = some i) :
    ∃ opcode operand, tableCells nbits w = [opcode, operand] ∧ decodePair opcode operand = .ok i := by
  refine ⟨_, _, rfl, ?_⟩
  unfold decodeTableWord at h
  split at h
  case h_1 j rest hd =>
    cases h
    exact ((decode_cons_cons_ok_iff _ _ _ _ _).1 hd).1
  case h_2 => cases h

end Sys2Proof.Machine

namespace Sys2Proof.Safety

open Sys2Proof.Machine

/-! ### One lemma per event of a step, in the order of R65 -/

/-- At ip >= LEN a step ends the run (spec/40_execution_cycle.md R56). -/
theorem step_of_past_end {s : State} (hs : s.status = .running) (hend : s.len.val ≤ s.ip.toNat) :
    step s = .next s.haltEnd := by
  rcases step_cases s with ⟨hn, -⟩ | ⟨-, ⟨-, h⟩ | ⟨hlast, -⟩ | ⟨hf, -⟩ | ⟨hf, -⟩⟩
  · exact absurd hs hn
  · exact h
  all_goals omega

/-- Settles O35: the checks before execution pass, since both cells are inside the program and decode. -/
theorem stepRunsDecoded : Obligations.StepRunsDecoded := by
  rintro s i ⟨hs, hin⟩ hd
  rcases step_cases s with ⟨hn, -⟩ | ⟨-, ⟨hend, -⟩ | ⟨hlast, -⟩ | ⟨-, hop, -⟩ | ⟨-, j, hj, h⟩⟩
  · exact absurd hs hn
  · omega
  · omega
  · have hle := i.opcode_le
    rw [((decodePair_ok_iff _ _ _).1 hd).1] at hle
    omega
  · cases hj.symm.trans hd; exact h

/-- A step runs the instruction whose opcode number and operand cell are fetched. -/
theorem step_eq_exec {s : State} (hf : Fetches s) {i : Instr} (hop : opcodeAt s = i.opcode.toNat)
    (hv : operandAt s = i.operand) : step s = exec i s :=
  stepRunsDecoded s i hf ((decodePair_ok_iff _ _ _).2 ⟨BitVec.eq_of_toNat_eq hop.symm, hv.symm⟩)

/-- A fetched opcode of at most 7 is that of an instruction with the fetched operand cell. -/
theorem exists_fetched_instr {s : State} (hop : opcodeAt s ≤ 7) :
    ∃ i : Instr, opcodeAt s = i.opcode.toNat ∧ operandAt s = i.operand := by
  obtain ⟨i, hd⟩ := decodePair_ok_of_le (Memory.read s.prog s.ip.toNat) (operandAt s) hop
  obtain ⟨hopcode, hoperand⟩ := (decodePair_ok_iff _ _ _).1 hd
  exact ⟨i, (congrArg BitVec.toNat hopcode).symm, hoperand.symm⟩

theorem ComboOpcode.le_seven {n : Nat} (h : ComboOpcode n) : n ≤ 7 := by
  unfold ComboOpcode at h; omega

/-- A fetched combo operand of 7 or more makes a step raise InvalidCombo. -/
theorem step_of_invalid_combo {s : State} (hf : Fetches s) (hop : ComboOpcode (opcodeAt s))
    (hv : 7 ≤ (operandAt s).toNat) : step s = .next (s.raise (.invalidCombo (operandAt s))) := by
  obtain ⟨i, hopcode, hoperand⟩ := exists_fetched_instr hop.le_seven
  rw [hopcode] at hop
  rw [hoperand] at hv ⊢
  rw [step_eq_exec hf hopcode hoperand]
  exact exec_of_invalid_combo s ((comboOpcode_iff_kind i).1 hop) hv

/-- A fetched emit whose digit the VERIFY comparator turns down makes a step diverge. -/
theorem step_of_turnedDown {s : State} (hf : Fetches s) (hop : opcodeAt s = 5) {x : Word}
    (hx : ComboIs s (operandAt s) x) (hd : TurnedDown s x) : step s = .next (s.diverge x.mod8) := by
  have hcombo : combo s (operandAt s) = some x := ((comboResolves s (operandAt s)).1 x).2 hx
  rw [step_eq_exec (i := .emit (operandAt s)) hf hop rfl]
  rcases execEmit_cases (operandAt s) s with ⟨y, hy, -, h⟩ | ⟨y, hy, hno, -⟩ | ⟨h7, -⟩
  · cases hy.symm.trans hcombo; exact h
  · cases hy.symm.trans hcombo
    cases hno.symm.trans ((diverges_iff_turnedDown s x).2 hd)
  · cases hcombo.symm.trans ((combo_eq_none_iff s (operandAt s)).2 h7)

/-- A fetched jump with A nonzero makes a step jump to the operand cell. -/
theorem step_of_taken_jump {s : State} (hf : Fetches s) (hop : opcodeAt s = 3) (ha : s.a ≠ 0) :
    step s = .next (s.jumpTo (literalTarget (operandAt s))) := by
  rw [step_eq_exec (i := .jumpIfANonzero (operandAt s)) hf hop rfl]
  rcases execJumpIfANonzero_cases (operandAt s) s with ⟨-, h⟩ | ⟨hz, -⟩
  · exact h
  · exact absurd hz ha

/-- Settles O33: while a run is in progress each event of a step answers a next state, the instruction by
`exec_answers`. -/
theorem stepsExactlyWhenRunning : Obligations.StepsExactlyWhenRunning := by
  intro s
  refine ⟨fun ⟨t, h⟩ => (step_next_cases s t h).1, fun hs => ?_⟩
  rcases step_cases s with ⟨hn, -⟩ | ⟨-, ⟨-, h⟩ | ⟨-, h⟩ | ⟨-, -, h⟩ | ⟨-, i, -, h⟩⟩
  · exact absurd hs hn
  · exact ⟨_, h⟩
  · exact ⟨_, h⟩
  · exact ⟨_, h⟩
  · rw [h]; exact exec_answers i s

/-- Where no check fires and no digit is turned down, a step completes its instruction and the run goes on. -/
theorem step_completes {s : State} (hf : Fetches s) (hop : opcodeAt s ≤ 7)
    (hv : ComboOpcode (opcodeAt s) → (operandAt s).toNat ≤ 6)
    (hx : ∀ x, opcodeAt s = 5 → ComboIs s (operandAt s) x → ¬ TurnedDown s x) :
    ∃ t, step s = .next t ∧ t.status = .running := by
  obtain ⟨hs, hin⟩ := hf
  obtain ⟨t, h⟩ := (stepsExactlyWhenRunning s).2 hs
  refine ⟨t, h, ?_⟩
  obtain ⟨-, ⟨hend, -⟩ | ⟨hlast, -⟩ | ⟨-, h8, -⟩ | ⟨-, hcombo, h7, -⟩ | ⟨-, h5, x, hcx, hd, -⟩ | ⟨-, -, x, -, -, rfl⟩ |
    ⟨-, -, -, rfl⟩ | ⟨-, -, -, rfl⟩ | ⟨-, -, -, -, -, r, w, rfl⟩⟩ := step_next_cases s t h
  · omega
  · omega
  · omega
  · have hle := hv hcombo; omega
  · exact absurd hd (hx x h5 (((comboResolves s (operandAt s)).1 x).1 hcx))
  all_goals exact hs

/-- Settles O30: one lemma per event; the fault entry writes the four fields of `faulted`. -/
theorem stepPriority : Obligations.StepPriority := fun _ hs =>
  ⟨step_of_past_end hs, step_of_operand_missing hs, fun hin =>
    ⟨step_of_invalid_opcode ⟨hs, hin⟩, step_of_invalid_combo ⟨hs, hin⟩,
      fun _ hop hx hd => ⟨_, step_of_turnedDown ⟨hs, hin⟩ hop hx hd, rfl, rfl⟩, step_completes ⟨hs, hin⟩⟩⟩

/-- Settles O29: at ip >= LEN a step is `State.haltEnd`, and a launched empty program stands there at once. -/
theorem haltAtEnd : Obligations.HaltAtEnd := by
  refine ⟨fun s hs hend => step_of_past_end hs hend, fun s t hstart hlen => ?_⟩
  obtain ⟨-, -, rfl⟩ := (hostStart_next_iff s t).1 hstart
  exact ⟨_, step_of_past_end rfl (Nat.le_of_eq hlen), rfl, rfl, rfl, rfl, rfl⟩

/-! ### What a step changes (spec/40_execution_cycle.md R60) -/

/-- `t` is `s` but for the registers, ip and out: what completing an instruction may write. -/
def SameButRegs (s t : State) : Prop := t = { s with a := t.a, b := t.b, c := t.c, ip := t.ip, out := t.out }

/-- The four ways a step can leave the run, each with its frame; a run ends normally only from ip >= LEN. -/
theorem step_frame_cases {s t : State} (h : step s = .next t) :
    (s.len.val ≤ s.ip.toNat ∧ t = s.haltEnd) ∨ (∃ trap, t = s.raise trap) ∨ (∃ d, t = s.diverge d) ∨
      (t.status = .running ∧ SameButRegs s t) := by
  obtain ⟨hs, ⟨hend, rfl⟩ | ⟨-, rfl⟩ | ⟨-, -, rfl⟩ | ⟨-, -, -, rfl⟩ | ⟨-, -, x, -, -, rfl⟩ | ⟨-, -, x, -, -, rfl⟩ |
    ⟨-, -, -, rfl⟩ | ⟨-, -, -, rfl⟩ | ⟨-, -, -, -, -, r, w, rfl⟩⟩ := step_next_cases s t h
  · exact .inl ⟨hend, rfl⟩
  · exact .inr (.inl ⟨_, rfl⟩)
  · exact .inr (.inl ⟨_, rfl⟩)
  · exact .inr (.inl ⟨_, rfl⟩)
  · exact .inr (.inr (.inl ⟨_, rfl⟩))
  all_goals exact .inr (.inr (.inr ⟨hs, rfl⟩))

/-- Settles O31: the STATUS after the step tells which of the four ways it was, and each way has its frame. -/
theorem stepIsAtomic : Obligations.StepIsAtomic := by
  intro s t h
  rcases step_frame_cases h with ⟨-, rfl⟩ | ⟨trap, rfl⟩ | ⟨d, rfl⟩ | ⟨hs, hframe⟩
  · exact ⟨nofun, fun _ => rfl, nofun, nofun, nofun⟩
  · exact ⟨fun _ => rfl, nofun, nofun, nofun, nofun⟩
  · exact ⟨nofun, nofun, fun _ => rfl, nofun, nofun⟩
  · simp only [hs]
    exact ⟨nofun, nofun, nofun, fun _ => hframe, nofun⟩

/-! ### The instruction placed for the next fetch -/

/-- Settles O36: both cells of the word stand inside the program at ip and ip + 1, so the step runs what they decode to. -/
theorem fetchWordIsRun : Obligations.FetchWordIsRun := by
  intro s w i hwf hw
  obtain ⟨opcode, operand, hcells, hd⟩ := decodePair_of_decodeTableWord hw
  have hip := s.withFetchWord_ip_toNat 16 w
  have hopcode : Memory.read (s.withFetchWord 16 w).prog s.fetchPlace = opcode :=
    State.read_withFetchWord hwf 16 w (j := 0) (by rw [hcells]; rfl)
  have hoperand := State.read_withFetchWord hwf 16 w (j := 1) (by rw [hcells]; rfl)
  have hf : Fetches (s.withFetchWord 16 w) := ⟨rfl, by rw [hip]; exact s.fetchPlace_lt_withFetchWord_len 16 w⟩
  refine ⟨stepRunsDecoded _ i hf ?_, rfl⟩
  rwa [operandAt, hip, hopcode, hoperand]

/-! ### ip (spec/40_execution_cycle.md R59, R63, R64) -/

/-- A jump target is the operand cell's whole value. -/
theorem jumpTo_literalTarget_ip_toNat (s : State) (v : Cell) : (s.jumpTo (literalTarget v)).ip.toNat = v.toNat :=
  literalTarget_toNat_of_admissible config_admissible v

/-- Settles O20: a taken jump sets ip to its target; elsewhere `IpFollows` leaves the advance alone. -/
theorem ipAfterInstruction : Obligations.IpAfterInstruction := by
  intro s t hf h hs
  refine ⟨fun hop ha => ?_, fun hno => ?_⟩
  · cases (step_of_taken_jump hf hop ha).symm.trans h
    exact jumpTo_literalTarget_ip_toNat s (operandAt s)
  · have hip := stepUnder_ipFollows config_admissible _ s t ((stepUnder_decided s).trans h)
    rcases hip.1 hs with hadvance | ⟨hop, ha, -⟩
    · exact hadvance
    · exact absurd ⟨hop, ha⟩ hno

/-- A state that steps to itself has a run of every length to itself. -/
theorem runs_of_step_self {s : State} (h : step s = .next s) (n : Nat) : Runs n s s := by
  induction n with
  | zero => rfl
  | succ n ih => exact ⟨s, h, ih⟩

/-- Settles O22: a taken jump writes ip alone, and here with the value it has. -/
theorem selfJumpNeverEnds : Obligations.SelfJumpNeverEnds := by
  intro s hf hop hself ha
  have hip : literalTarget (operandAt s) = s.ip :=
    BitVec.eq_of_toNat_eq ((jumpTo_literalTarget_ip_toNat s (operandAt s)).trans hself)
  have hstep : step s = .next s := by
    rw [step_of_taken_jump hf hop ha, hip]; rfl
  exact runs_of_step_self hstep

/-- Where ip stands along a run: at most at LEN or at a jump target, which is one cell; at the normal end not below
LEN. -/
def EndIpInv (s : State) : Prop :=
  (s.ip.toNat ≤ s.len.val ∨ s.ip.toNat < 256) ∧ (s.status = .haltEnd → s.len.val ≤ s.ip.toNat)

theorem endIpInv_launch (s : State) : EndIpInv s.launch := ⟨.inl (Nat.zero_le _), nofun⟩

theorem step_keeps_endIpInv (s t : State) (hs : EndIpInv s) (h : step s = .next t) : EndIpInv t := by
  obtain ⟨-, hlen, -⟩ := step_keeps_launchInputs s t h
  constructor
  · rw [hlen]
    rcases step_ip_cases h with heq | hle | hlt
    · rw [heq]; exact hs.1
    · exact .inl hle
    · exact .inr hlt
  · rcases step_frame_cases h with ⟨hend, rfl⟩ | ⟨trap, rfl⟩ | ⟨d, rfl⟩ | ⟨hrun, -⟩
    · exact fun _ => hend
    · nofun
    · nofun
    · rw [hrun]; nofun

/-- Settles O58: `EndIpInv` holds at launch and every step keeps it. -/
theorem endOfRunIp : Obligations.EndOfRunIp := by
  intro n s t hrun hend
  obtain ⟨hle, hge⟩ := runs_keep EndIpInv step_keeps_endIpInv n s.launch t (endIpInv_launch s) hrun
  have := hge hend
  omega

/-! ### What a run delivers (spec/40_execution_cycle.md R61) -/

/-- There is a report exactly when a run has finished. -/
theorem report_isSome_iff_finished (s : State) : (∃ r, s.report = some r) ↔ Finished s := by
  unfold State.report Finished
  cases s.status <;> simp

/-- Settles O49: the report of each final STATUS, and the result read off it. -/
theorem runDelivers : Obligations.RunDelivers := by
  intro s
  refine ⟨fun h => ?_, fun h => ?_, fun h => ?_, report_isSome_iff_finished s⟩
  all_goals simp [State.result, State.report, h]

end Sys2Proof.Safety
end

section
/-! The shift family: the right shift as floor division, and opcodes 0, 6 and 7, which shift A by a combo operand into A, B
or C (spec/41_shift.md R67 to R70). -/
namespace Sys2Proof.Machine

variable {xlen cellw lenMax ipw : Nat}

/-! ### The right shift (R67) -/

theorem ushiftRight_toNat_eq_div (v : Word xlen) (n : Nat) : (v >>> n).toNat = v.toNat / 2 ^ n := by
  rw [BitVec.toNat_ushiftRight, Nat.shiftRight_eq_div_pow]

theorem ushiftRight_toNat_le (v : Word xlen) (n : Nat) : (v >>> n).toNat ≤ v.toNat := by
  rw [ushiftRight_toNat_eq_div]
  exact Nat.div_le_self _ _

theorem ushiftRight_toNat_lt {v : Word xlen} {n : Nat} (hv : 0 < v.toNat) (hn : 0 < n) :
    (v >>> n).toNat < v.toNat := by
  rw [ushiftRight_toNat_eq_div]
  exact Nat.div_lt_self hv (Nat.one_lt_two_pow (Nat.ne_of_gt hn))

/-- Under SHAMT_OVER = fault exactly the amounts of XLEN and more have no result. -/
theorem shrUnder_fault_eq_none_iff (v amount : Word xlen) :
    shrUnder .fault v amount = none ↔ xlen ≤ amount.toNat := by
  simp [shrUnder_eq]

/-- Below XLEN the value of SHAMT_OVER makes no difference. -/
theorem shrUnder_of_lt (shamtOver : Config.ShamtOver) (v : Word xlen) {amount : Word xlen} (h : amount.toNat < xlen) :
    shrUnder shamtOver v amount = shr v amount :=
  (if_pos h).trans (shr_eq v amount).symm

/-! ### What the three shifts share -/

/-- A shift whose operand has a value completes. -/
theorem shiftInto_of_combo (dest : Reg) {v : Cell cellw} {s : State xlen cellw lenMax ipw} {x : Word xlen}
    (hx : combo s v = some x) : shiftInto dest v s = .next (s.writeReg dest (s.a >>> x.toNat)).advance := by
  rcases shiftInto_cases dest v s with ⟨y, hy, h⟩ | ⟨hv, -⟩
  · cases hy.symm.trans hx; exact h
  · cases hx.symm.trans ((combo_eq_none_iff s v).2 hv)

/-- Operand 4 shifts A by itself, so the result is 0. -/
theorem shiftInto_of_operand_a (dest : Reg) {v : Cell cellw} (s : State xlen cellw lenMax ipw) (hv : v.toNat = 4) :
    shiftInto dest v s = .next (s.writeReg dest 0).advance := by
  rw [shiftInto_of_combo dest (combo_a s v hv), BitVec.ushiftRight_self]; rfl

end Sys2Proof.Machine

namespace Sys2Proof.Safety

open Sys2Proof.Machine

/-- A shift by the value of a legal combo cell writes the quotient. -/
theorem shiftInto_of_comboIs (dest : Reg) {v : Cell} {s : State} {x : Word} (hx : ComboIs s v x) :
    shiftInto dest v s = .next (s.writeReg dest (BitVec.ofNat 64 (s.a.toNat / 2 ^ x.toNat))).advance := by
  rw [shiftInto_of_combo dest (((comboResolves s v).1 x).2 hx), ushiftRight_eq_ofNat_div]

/-- The value of a combo cell, read off the range the cell is in (spec/41_shift.md R67: the amounts that occur). -/
theorem combo_amounts {s : State} {v : Cell} {amount : Word} (h : combo s v = some amount) :
    (v.toNat ≤ 3 → amount.toNat = v.toNat) ∧ (v.toNat = 4 → amount = s.a) ∧ (v.toNat = 5 → amount = s.b) ∧
      (v.toNat = 6 → amount = s.c) := by
  rcases ((comboResolves s v).1 amount).1 h with ⟨hv, hx⟩ | ⟨hv, rfl⟩ | ⟨hv, rfl⟩ | ⟨hv, rfl⟩
  · exact ⟨fun _ => hx, by omega, by omega, by omega⟩
  all_goals simp [hv]

/-- Settles O11: the result is the zero-filling shift, and the lemmas above say what that is. -/
theorem shrIsDivision : Obligations.ShrIsDivision := by
  refine ⟨fun v amount => ⟨v >>> amount.toNat, shr_eq v amount, ushiftRight_toNat_eq_div v _, ushiftRight_toNat_le v _,
      ushiftRight_toNat_lt, BitVec.ushiftRight_eq_zero, ?_, ?_⟩,
    shrUnder_fault_eq_none_iff, fun v _ => shrUnder_of_lt .fault v, fun _ _ _ => combo_amounts⟩
  · rintro rfl; exact BitVec.ushiftRight_zero v
  · rintro rfl; exact BitVec.zero_ushiftRight

/-! ### The three instructions (R68 to R70) -/

/-- `shift-A` never increases A, whether it completes or raises InvalidCombo (spec/41_shift.md R68). -/
theorem exec_shiftA_a_le {v : Cell} {s t : State} (h : exec (.shiftA v) s = .next t) :
    t.a.toNat ≤ s.a.toNat := by
  rcases shiftInto_cases .a v s with ⟨x, -, hexec⟩ | ⟨-, hexec⟩
  · cases hexec.symm.trans h
    exact ushiftRight_toNat_le s.a x.toNat
  · cases hexec.symm.trans h
    exact Nat.le_refl _

/-- Instructions with the same opcode and operand are equal: the two cells decode to both. -/
theorem instr_eq_of_opcode_operand {i j : Instr} (hop : i.opcode.toNat = j.opcode.toNat) (hv : i.operand = j.operand) :
    i = j := by
  have hi := (decodePair_ok_iff i.opcode i.operand i).2 ⟨rfl, rfl⟩
  have hj := (decodePair_ok_iff i.opcode i.operand j).2 ⟨(BitVec.eq_of_toNat_eq hop).symm, hv.symm⟩
  exact Except.ok.inj (hi.symm.trans hj)

/-- Settles O12: the shared shift with destination A; the opcode of a writer of A is 0 by `registerWriters`, and its result
is not above A. -/
theorem shiftAResult : Obligations.ShiftAResult := by
  refine ⟨fun _ => rfl, fun _ _ _ => shiftInto_of_comboIs .a, fun s _ => shiftInto_of_operand_a .a s,
    fun s v hv => exec_of_invalid_combo (i := .shiftA v) s rfl hv, fun i s t h hne => ?_⟩
  obtain ⟨hwriter, -⟩ := registerWriters i s t h
  obtain ⟨v, rfl⟩ : ∃ v, i = .shiftA v := ⟨i.operand, instr_eq_of_opcode_operand (hwriter hne) rfl⟩
  exact ⟨⟨v, rfl⟩, Nat.lt_of_le_of_ne (exec_shiftA_a_le h) (mt BitVec.eq_of_toNat_eq hne)⟩

/-- Settles O13: the shared shift with destination B. -/
theorem shiftBFromAResult : Obligations.ShiftBFromAResult :=
  ⟨fun _ => rfl, fun _ _ _ => shiftInto_of_comboIs .b, fun s _ => shiftInto_of_operand_a .b s,
    fun s v hv => exec_of_invalid_combo (i := .shiftBFromA v) s rfl hv⟩

/-- Settles O14: the shared shift with destination C; the opcode of a writer of C is 7 by `registerWriters`. -/
theorem shiftCFromAResult : Obligations.ShiftCFromAResult := by
  refine ⟨fun _ => rfl, fun _ _ _ => shiftInto_of_comboIs .c, fun s _ => shiftInto_of_operand_a .c s,
    fun s v hv => exec_of_invalid_combo (i := .shiftCFromA v) s rfl hv, fun i s t h hne => ?_⟩
  obtain ⟨-, -, hwriter, -⟩ := registerWriters i s t h
  exact ⟨i.operand, instr_eq_of_opcode_operand (hwriter hne) rfl⟩

end Sys2Proof.Safety
end

section
/-! The B-logic family: opcodes 1, 2 and 4, which write B and nothing else but ip (spec/42_blogic.md R71 to R73). -/
namespace Sys2Proof.Machine

/-- A combo operand with a value goes on with that value. -/
theorem withCombo_of_combo {xlen cellw lenMax ipw : Nat} {v : Cell cellw} {s : State xlen cellw lenMax ipw}
    {x : Word xlen} (hx : combo s v = some x) (body : Word xlen → Host.Outcome (State xlen cellw lenMax ipw) Fault Refusal) :
    withCombo s v body = body x := by
  rw [withCombo, hx]

/-! ### One equation per completing instruction, in the fields it writes -/

theorem exec_xorBLiteral (v : Cell) (s : State) :
    exec (.xorBLiteral v) s = .next { s with b := s.b ^^^ literalWord v, ip := s.ip + 2 } := rfl

theorem exec_xorBC (v : Cell) (s : State) :
    exec (.xorBC v) s = .next { s with b := s.b ^^^ s.c, ip := s.ip + 2 } := rfl

theorem exec_storeBMod8_of_combo {v : Cell} {s : State} {x : Word} (hx : combo s v = some x) :
    exec (.storeBMod8 v) s = .next { s with b := x.mod8.setWidth 64, ip := s.ip + 2 } :=
  withCombo_of_combo hx _

/-! ### The bits of the two operands -/

/-- A literal has the bits of its cell, and zeros above them (spec/30_encoding.md R46). -/
theorem literalWord_getLsbD (v : Cell) (j : Nat) : (literalWord v : Word).getLsbD j = v.getLsbD j := by
  rw [literalWord, BitVec.getLsbD_setWidth, Bool.and_eq_right_iff_imp]
  exact fun h => decide_eq_true (Nat.lt_of_lt_of_le (BitVec.lt_of_getLsbD h) (by decide))

/-- The zero-extended low three bits are the remainder modulo 8 (spec/42_blogic.md R72). -/
theorem mod8_setWidth_eq_ofNat (x : Word) : x.mod8.setWidth 64 = BitVec.ofNat 64 (x.toNat % 8) := by
  apply BitVec.eq_of_toNat_eq
  rw [BitVec.toNat_setWidth, Word.mod8_toNat, BitVec.toNat_ofNat]

end Sys2Proof.Machine

namespace Sys2Proof.Safety

open Sys2Proof.Machine

/-! ### The three instructions (R71 to R73) -/

/-- Settles O15: the cell has no bit from 8 on, and a word xored twice with the same literal is itself. -/
theorem xorBLiteralResult : Obligations.XorBLiteralResult := by
  refine ⟨fun _ => rfl, fun s v => ⟨s.b ^^^ literalWord v, exec_xorBLiteral v s, fun j _ => ?_, fun j hj => ?_, ?_⟩⟩
  · rw [BitVec.getLsbD_xor, literalWord_getLsbD]
  · rw [BitVec.getLsbD_xor, literalWord_getLsbD, BitVec.getLsbD_of_ge v j hj, Bool.xor_false]
  · rw [exec_xorBLiteral, BitVec.xor_assoc, BitVec.xor_self, BitVec.xor_zero]

/-- Settles O16: the operand's value is resolved as for the other combo instructions, and its low three bits are its
remainder. -/
theorem storeBMod8Result : Obligations.StoreBMod8Result := by
  refine ⟨fun _ => rfl, fun s v x hx => ?_, fun s v hv => exec_of_invalid_combo (i := .storeBMod8 v) s rfl hv⟩
  rw [exec_storeBMod8_of_combo (((comboResolves s v).1 x).2 hx), mod8_setWidth_eq_ofNat]

/-- Settles O17: the corner cases are `xor` with 0 and with itself, and the fetch asks for the operand cell that the
instruction ignores. -/
theorem xorBCResult : Obligations.XorBCResult := by
  refine ⟨fun _ => rfl, fun s v => ⟨s.b ^^^ s.c, exec_xorBC v s, fun _ => BitVec.getLsbD_xor, fun hc => ?_, fun hbc => ?_⟩,
    fun _ hs hlast _ => step_of_operand_missing hs hlast⟩
  · rw [hc]; exact BitVec.xor_zero
  · rw [hbc]; exact BitVec.xor_self

end Sys2Proof.Safety
end

section
/-! Control transfer: opcode 3, which writes ip alone (spec/43_jump.md R75 to R77). -/
namespace Sys2Proof.Machine

/-! ### The two branches of the jump -/

theorem exec_jumpIfANonzero_of_ne_zero (v : Cell) {s : State} (ha : s.a ≠ 0) :
    exec (.jumpIfANonzero v) s = .next (s.jumpTo (literalTarget v)) := by
  rcases execJumpIfANonzero_cases v s with ⟨-, h⟩ | ⟨hz, -⟩
  · exact h
  · exact absurd hz ha

theorem exec_jumpIfANonzero_of_eq_zero (v : Cell) {s : State} (ha : s.a = 0) :
    exec (.jumpIfANonzero v) s = .next s.advance := by
  rcases execJumpIfANonzero_cases v s with ⟨hne, -⟩ | ⟨-, h⟩
  · exact absurd ha hne
  · exact h

/-- The test is on every bit of A: one bit that is 1 makes A nonzero. -/
theorem ne_zero_of_getLsbD {xlen : Nat} {x : Word xlen} {j : Nat} (hj : x.getLsbD j = true) : x ≠ 0 := by
  rintro rfl
  exact absurd (BitVec.getLsbD_zero.symm.trans hj) Bool.false_ne_true

/-! ### The target -/

theorem literalTarget_eq_ofNat (v : Cell) : (literalTarget v : CellIndex) = BitVec.ofNat 9 v.toNat :=
  (BitVec.ofNat_toNat 9 v).symm

/-- A cell that holds a cell index as a number has that index as its target. -/
theorem literalTarget_eq_of_toNat_eq {v : Cell} {i : CellIndex} (h : v.toNat = i.toNat) : literalTarget v = i :=
  BitVec.eq_of_toNat_eq ((literalTarget_toNat_of_admissible config_admissible v).trans h)

end Sys2Proof.Machine

namespace Sys2Proof.Safety

open Sys2Proof.Machine

/-- A jump target of ip + 2 is where the fall-through goes: one cell holds it, so the advance does not wrap. -/
theorem literalTarget_eq_advance {s : State} {v : Cell} (h : s.ip.toNat + 2 = v.toNat) : literalTarget v = s.ip + 2 := by
  have hv := v.isLt
  apply literalTarget_eq_of_toNat_eq
  rw [← h, BitVec.toNat_add]
  exact (Nat.mod_eq_of_lt (by omega : s.ip.toNat + 2 < 2 ^ 9)).symm

/-- Settles O18: the two branches; at the target ip + 2 they agree, and at the target ip the jump writes what is there. -/
theorem jumpResult : Obligations.JumpResult := by
  refine ⟨fun _ => rfl, fun s v ⟨j, hj⟩ => ?_, fun s v => exec_jumpIfANonzero_of_eq_zero v, fun s v hnext => ?_,
    fun s v ha hself => ?_⟩
  · rw [exec_jumpIfANonzero_of_ne_zero v (ne_zero_of_getLsbD hj), literalTarget_eq_ofNat]; rfl
  · by_cases ha : s.a = 0
    · exact exec_jumpIfANonzero_of_eq_zero v ha
    · rw [exec_jumpIfANonzero_of_ne_zero v ha, literalTarget_eq_advance hnext]; rfl
  · rw [exec_jumpIfANonzero_of_ne_zero v ha, literalTarget_eq_of_toNat_eq hself]; rfl

/-- Settles O19: after the jump STATUS and LEN are as before and ip is the operand cell's value, so the next step is the
one past the end, or the one at LEN - 1. -/
theorem jumpOutsideHaltsNext : Obligations.JumpOutsideHaltsNext := by
  intro s hf hop ha
  have hstep := step_of_taken_jump hf hop ha
  have hip := jumpTo_literalTarget_ip_toNat s (operandAt s)
  have hframe : s.jumpTo (literalTarget (operandAt s)) = { s with ip := BitVec.ofNat 9 (operandAt s).toNat } := by
    rw [literalTarget_eq_ofNat]; rfl
  refine ⟨fun hout => ⟨_, hstep, hframe, ?_⟩, fun hlast => ⟨_, hstep, hframe, ?_⟩⟩
  · exact step_of_past_end hf.1 (hip.symm ▸ hout)
  · exact step_of_operand_missing hf.1 (hip.symm ▸ hlast)

/-- A step ends a run normally only from ip >= LEN (spec/40_execution_cycle.md R56). -/
theorem past_end_of_step_haltEnd {s t : State} (h : step s = .next t) (ht : t.status = .haltEnd) :
    s.len.val ≤ s.ip.toNat := by
  rcases step_frame_cases h with ⟨hend, -⟩ | ⟨trap, rfl⟩ | ⟨d, rfl⟩ | ⟨hrun, -⟩
  · exact hend
  · cases ht
  · cases ht
  · cases hrun.symm.trans ht

/-- An advance by 2 keeps the parity of ip, so only a taken jump changes it (spec/43_jump.md R76). -/
theorem taken_jump_of_parity_change {s t : State} (hf : Fetches s) (h : step s = .next t) (hrun : t.status = .running)
    (hparity : t.ip.toNat % 2 ≠ s.ip.toNat % 2) : opcodeAt s = 3 ∧ s.a ≠ 0 := by
  refine Decidable.byContradiction fun hno => ?_
  have hadvance := (ipAfterInstruction s t hf h hrun).2 hno
  exact hparity (by rw [hadvance, Nat.add_mod_right])

/-- Settles O21: the target is the operand cell whatever its parity, and the checks of a step do not ask for the parity of
ip either; inside the program they leave no way to the normal end. -/
theorem oddAlignment : Obligations.OddAlignment := by
  refine ⟨fun s v ha => ⟨_, exec_jumpIfANonzero_of_ne_zero v ha, jumpTo_literalTarget_ip_toNat s v⟩,
    fun s t hf h hrun hparity => ?_, fun s hs _ _ hin => ⟨fun i hnext => stepRunsDecoded s i ⟨hs, hnext⟩, ?_, ?_,
      step_of_operand_missing hs, fun t h ht => ?_⟩⟩
  · obtain ⟨hop, ha⟩ := taken_jump_of_parity_change hf h hrun hparity
    exact ⟨hop, ha, (ipAfterInstruction s t hf h hrun).1 hop ha⟩
  · exact fun hop hnext => step_of_invalid_opcode ⟨hs, hnext⟩ hop
  · exact fun hop hv hnext => step_of_invalid_combo ⟨hs, hnext⟩ hop hv
  · exact absurd (past_end_of_step_haltEnd h ht) (Nat.not_le_of_lt hin)

end Sys2Proof.Safety
end

section
/-! Emit: opcode 5 in both modes, the divergence of a VERIFY run, and which steps append to out (spec/44_emit.md R78 to R84;
spec/10_state.md R22). -/
namespace Sys2Proof.Safety

open Sys2Proof.Machine

/-! ### Operands and digits -/

theorem combo_eq_some_iff (s : State) (v : Cell) (x : Word) : combo s v = some x ↔ ComboIs s v x :=
  (comboResolves s v).1 x

/-- A combo cell of at most 6 has a value. -/
theorem exists_comboIs (s : State) {v : Cell} (hv : v.toNat ≤ 6) : ∃ x, ComboIs s v x := by
  cases hx : combo s v with
  | some x => exact ⟨x, (combo_eq_some_iff s v x).1 hx⟩
  | none => have := (combo_eq_none_iff s v).1 hx; omega

/-- The digit of a word, as a number written into three bits. -/
theorem mod8_eq_ofNat (x : Word) : x.mod8 = BitVec.ofNat 3 (x.toNat % 8) := by
  apply BitVec.eq_of_toNat_eq
  rw [Word.mod8_toNat, BitVec.toNat_ofNat, Nat.mod_mod]

/-- In a FULL run the comparator turns nothing down (spec/44_emit.md R82). -/
theorem not_turnedDown_of_full {s : State} (hmode : s.mode = .full) (x : Word) : ¬ TurnedDown s x :=
  fun hd => nomatch hmode.symm.trans hd.1

/-! ### The two answers of an emit with a valid operand -/

theorem exec_emit_of_not_turnedDown {s : State} {v : Cell} {x : Word} (hx : ComboIs s v x) (hd : ¬ TurnedDown s x) :
    exec (.emit v) s = .next (s.append x.mod8).advance :=
  calc exec (.emit v) s
      = if s.diverges x.mod8 then .next (s.diverge x.mod8) else .next (s.append x.mod8).advance :=
        withCombo_of_combo ((combo_eq_some_iff s v x).2 hx) _
    _ = .next (s.append x.mod8).advance := if_neg (mt (diverges_iff_turnedDown s x).1 hd)

theorem exec_emit_of_turnedDown {s : State} {v : Cell} {x : Word} (hx : ComboIs s v x) (hd : TurnedDown s x) :
    exec (.emit v) s = .next (s.diverge x.mod8) :=
  calc exec (.emit v) s
      = if s.diverges x.mod8 then .next (s.diverge x.mod8) else .next (s.append x.mod8).advance :=
        withCombo_of_combo ((combo_eq_some_iff s v x).2 hx) _
    _ = .next (s.diverge x.mod8) := if_pos ((diverges_iff_turnedDown s x).2 hd)

/-- Settles O23: the comparator lets every digit pass in a FULL run, and in a VERIFY run the digits equal to the cell at
their position. -/
theorem emitResult : Obligations.EmitResult := by
  refine ⟨fun _ => rfl, fun s v x hx hmode => ?_, fun s v x hx hmode hroom hcell => ?_, fun s v x hx hmode hd => ?_,
    fun s v hv => exec_of_invalid_combo (i := .emit v) s rfl hv⟩
  · rw [← mod8_eq_ofNat]
    exact exec_emit_of_not_turnedDown hx (not_turnedDown_of_full hmode x)
  · have hpass : ¬ TurnedDown s x := by
      rintro ⟨-, hend | hne⟩
      · omega
      · exact hne hcell
    rw [← mod8_eq_ofNat]
    exact exec_emit_of_not_turnedDown hx hpass
  · rw [← mod8_eq_ofNat]
    exact exec_emit_of_turnedDown hx ⟨hmode, hd⟩

/-! ### What a step that diverges, and a step that emits, has done -/

/-- A fetched emit whose digit passes the comparator makes a step append the digit and advance. -/
theorem step_of_not_turnedDown {s : State} (hf : Fetches s) (hop : opcodeAt s = 5) {x : Word}
    (hx : ComboIs s (operandAt s) x) (hd : ¬ TurnedDown s x) : step s = .next (s.append x.mod8).advance :=
  (step_eq_exec (i := .emit (operandAt s)) hf hop rfl).trans (exec_emit_of_not_turnedDown hx hd)

/-- A step that diverges has executed an emit whose digit the comparator turned down (spec/44_emit.md R83). -/
theorem turnedDown_of_step_diverged {s t : State} (h : step s = .next t) (ht : t.status = .haltDiverged) :
    Fetches s ∧ opcodeAt s = 5 ∧ ∃ x, ComboIs s (operandAt s) x ∧ TurnedDown s x ∧ t = s.diverge x.mod8 := by
  obtain ⟨hs, ⟨-, rfl⟩ | ⟨-, rfl⟩ | ⟨-, -, rfl⟩ | ⟨-, -, -, rfl⟩ | ⟨hf, hop, x, hx, hd, rfl⟩ | ⟨-, -, x, -, -, rfl⟩ |
    ⟨-, -, -, rfl⟩ | ⟨-, -, -, rfl⟩ | ⟨-, -, -, -, -, r, w, rfl⟩⟩ := step_next_cases s t h
  · cases ht
  · cases ht
  · cases ht
  · cases ht
  · exact ⟨hf, hop, x, (combo_eq_some_iff s _ x).1 hx, hd, rfl⟩
  all_goals cases hs.symm.trans ht

/-- A step appends the digit of a completed emit, or leaves out as it was (spec/44_emit.md R80). -/
theorem step_emits_or_keeps_out {s t : State} (h : step s = .next t) :
    ((Fetches s ∧ opcodeAt s = 5 ∧ t.status = .running) ∧
      ∃ x, ComboIs s (operandAt s) x ∧ t.out = s.out ++ [x.mod8]) ∨
    (¬ (Fetches s ∧ opcodeAt s = 5 ∧ t.status = .running) ∧ t.out = s.out) := by
  obtain ⟨hs, ⟨-, rfl⟩ | ⟨-, rfl⟩ | ⟨-, -, rfl⟩ | ⟨-, -, -, rfl⟩ | ⟨-, -, x, -, -, rfl⟩ | ⟨hf, hop, x, hx, -, rfl⟩ |
    ⟨-, h3, -, rfl⟩ | ⟨-, h3, -, rfl⟩ | ⟨-, -, -, hne, -, r, w, rfl⟩⟩ := step_next_cases s t h
  · exact .inr ⟨nofun, rfl⟩
  · exact .inr ⟨nofun, rfl⟩
  · exact .inr ⟨nofun, rfl⟩
  · exact .inr ⟨nofun, rfl⟩
  · exact .inr ⟨nofun, rfl⟩
  · exact .inl ⟨⟨hf, hop, hs⟩, x, (combo_eq_some_iff s _ x).1 hx, rfl⟩
  · exact .inr ⟨fun ⟨_, hop, _⟩ => by omega, rfl⟩
  · exact .inr ⟨fun ⟨_, hop, _⟩ => by omega, rfl⟩
  · exact .inr ⟨fun ⟨_, hop, _⟩ => hne hop, rfl⟩

/-! ### The divergence (R83, R84) and the output events (R80) -/

/-- Settles O24: the inversion of a diverging step and the step of an emit turned down; a cell of 8 or more is no remainder
modulo 8. -/
theorem divergesExactlyWhen : Obligations.DivergesExactlyWhen := by
  intro s t h
  have diverges_of {x : Word} (hf : Fetches s) (hop : opcodeAt s = 5) (hx : ComboIs s (operandAt s) x)
      (hd : TurnedDown s x) : t.status = .haltDiverged := by
    cases (step_of_turnedDown hf hop hx hd).symm.trans h; rfl
  refine ⟨⟨fun ht => ?_, fun ⟨hf, hop, x, hx, hd⟩ => diverges_of hf hop hx hd⟩, fun hf hop hv hmode hcell => ?_,
    fun ht => ?_, fun hf hop hv => ?_⟩
  · obtain ⟨hf, hop, x, hx, hd, -⟩ := turnedDown_of_step_diverged h ht
    exact ⟨hf, hop, x, hx, hd⟩
  · obtain ⟨x, hx⟩ := exists_comboIs s hv
    exact diverges_of hf hop hx ⟨hmode, .inr (by omega)⟩
  · obtain ⟨-, -, x, -, -, rfl⟩ := turnedDown_of_step_diverged h ht
    rfl
  · have hcombo : ComboOpcode (opcodeAt s) := .inr (.inr (.inl hop))
    cases (step_of_invalid_combo hf hcombo hv).symm.trans h
    rfl

/-- Settles O25: the state is `State.diverge`, whose DIV_POS holds every number below 512. -/
theorem divergenceState : Obligations.DivergenceState := by
  intro s t h ht
  obtain ⟨-, -, x, hx, -, rfl⟩ := turnedDown_of_step_diverged h ht
  refine ⟨rfl, fun hlen => ?_, ⟨x, hx, Word.mod8_toNat x⟩, fun u hu => ?_⟩
  · rw [State.diverge_divPos, BitVec.toNat_ofNat]; omega
  · cases (step_of_not_running (s := s.diverge x.mod8) nofun).symm.trans hu

/-- Settles O26: the two cases of `step_emits_or_keeps_out`, and the launch reset. -/
theorem outputEvents : Obligations.OutputEvents := by
  refine ⟨fun s t h hf hop hrun => ?_, fun s t h hno => ?_, fun s t h => ?_⟩
  · rcases step_emits_or_keeps_out h with ⟨-, x, hx, hout⟩ | ⟨hno, -⟩
    · exact ⟨x.mod8, x, hout, hx, Word.mod8_toNat x⟩
    · exact absurd ⟨hf, hop, hrun⟩ hno
  · rcases step_emits_or_keeps_out h with ⟨hemit, -⟩ | ⟨-, hout⟩
    · exact absurd hemit hno
    · exact hout
  · obtain ⟨-, -, rfl⟩ := (hostStart_next_iff s t).1 h
    rfl

end Sys2Proof.Safety
end

section
/-! Runs: one step more at the end, two runs from one state, and what a run keeps of the program and of out
(spec/40_execution_cycle.md R61, R62; spec/44_emit.md R79). -/
namespace Sys2Proof.Safety

open Sys2Proof.Machine

/-- A run of one step more, by its last step. -/
theorem runs_succ_iff_last (n : Nat) (s t : State) : Runs (n + 1) s t ↔ ∃ u, Runs n s u ∧ step u = .next t := by
  induction n generalizing s with
  | zero =>
    constructor
    · rintro ⟨u, h, rfl⟩; exact ⟨s, rfl, h⟩
    · rintro ⟨u, rfl, h⟩; exact ⟨t, h, rfl⟩
  | succ n ih =>
    constructor
    · rintro ⟨v, hv, h⟩
      obtain ⟨u, hu, hlast⟩ := (ih v).1 h
      exact ⟨u, ⟨v, hv, hu⟩, hlast⟩
    · rintro ⟨u, ⟨v, hv, hu⟩, hlast⟩
      exact ⟨v, hv, (ih v).2 ⟨u, hu, hlast⟩⟩

/-- From a state in which no run is in progress no step leads anywhere. -/
theorem runs_of_not_running {n : Nat} {s t : State} (hs : s.status ≠ .running) (h : Runs n s t) : t = s := by
  cases n with
  | zero => exact h.symm
  | succ n =>
    obtain ⟨u, hu, -⟩ := h
    exact absurd (step_next_cases s u hu).1 hs

theorem not_running_of_finished {s : State} (h : Finished s) : s.status ≠ .running := by
  rcases h with h | h | h <;> simp [h]

/-- A step is a function of the state, so a run that is over goes through every other run from its first state. -/
theorem runs_to_finished_through {k m : Nat} {s u t : State} (hk : Runs k s u) (hm : Runs m s t) (ht : Finished t) :
    ∃ j, Runs j u t := by
  induction k generalizing s m with
  | zero => cases hk; exact ⟨m, hm⟩
  | succ k ih =>
    obtain ⟨v, hv, hk⟩ := hk
    cases m with
    | zero =>
      cases hm
      exact absurd (step_next_cases _ v hv).1 (not_running_of_finished ht)
    | succ m =>
      obtain ⟨w, hw, hm⟩ := hm
      cases hv.symm.trans hw
      exact ih hk hm

/-- No step of a run writes the program or MODE. -/
theorem runs_keep_program_mode {n : Nat} {s t : State} (h : Runs n s t) :
    t.prog = s.prog ∧ t.len = s.len ∧ t.mode = s.mode :=
  runs_keep (fun u => u.prog = s.prog ∧ u.len = s.len ∧ u.mode = s.mode)
    (fun u v ⟨hp, hl, hm⟩ huv => by
      obtain ⟨hp', hl', -, -, -, hm', -⟩ := step_keeps_launchInputs u v huv
      exact ⟨hp'.trans hp, hl'.trans hl, hm'.trans hm⟩)
    n s t ⟨rfl, rfl, rfl⟩ h

/-- out is append-only (spec/44_emit.md R79). -/
theorem step_out_prefix {s t : State} (h : step s = .next t) : s.out <+: t.out := by
  rcases step_out_cases h with hout | ⟨x, -, hout⟩
  · exact hout ▸ List.prefix_refl s.out
  · exact hout ▸ List.prefix_append s.out _

theorem runs_out_prefix {n : Nat} {s t : State} (h : Runs n s t) : s.out <+: t.out :=
  runs_keep (fun u => s.out <+: u.out) (fun _ _ hu huv => hu.trans (step_out_prefix huv)) n s t (List.prefix_refl _) h

end Sys2Proof.Safety
end

section
/-! A VERIFY run: out is where the program begins at each of its states, and what its end says (spec/44_emit.md R85). -/
namespace Sys2Proof.Safety

open Sys2Proof.Machine

/-- At launch nothing has been emitted. -/
theorem outMatches_launch (s : State) : OutMatches s.launch := ⟨Nat.zero_le _, nofun⟩

/-- At every state of a VERIFY run out is where the program begins. -/
theorem verify_run_outMatches {s : State} {n : Nat} {t : State} (h : Runs n (withMode s .verify).launch t) :
    OutMatches t := by
  have keeps (u v : State) (hu : u.mode = .verify ∧ OutMatches u) (huv : step u = .next v) :
      v.mode = .verify ∧ OutMatches v := by
    obtain ⟨hverify, hm⟩ := hu
    obtain ⟨-, -, -, -, -, hmode, -⟩ := step_keeps_launchInputs u v huv
    exact ⟨hmode.trans hverify, step_keeps_outMatches hverify hm huv⟩
  exact (runs_keep (fun u => u.mode = .verify ∧ OutMatches u) keeps n _ t ⟨rfl, outMatches_launch _⟩ h).2

/-- A launched run that has diverged did so in its last step. -/
theorem run_diverged_last {s : State} {n : Nat} {t : State} (h : Runs n s.launch t) (ht : t.status = .haltDiverged) :
    ∃ k u, Runs k s.launch u ∧ step u = .next t := by
  cases n with
  | zero => cases h; cases ht
  | succ n =>
    obtain ⟨u, hu, hlast⟩ := (runs_succ_iff_last n s.launch t).1 h
    exact ⟨n, u, hu, hlast⟩

/-- A VERIFY run that has diverged records its position whole: out never exceeds LEN. -/
theorem verify_run_divPos {s : State} {n : Nat} {t : State} (h : Runs n (withMode s .verify).launch t)
    (ht : t.status = .haltDiverged) : t.divPos.toNat = t.out.length := by
  obtain ⟨k, u, hu, hlast⟩ := run_diverged_last h ht
  obtain ⟨hframe, hpos, -⟩ := divergenceState u t hlast ht
  have hlen := u.len.isLt
  have hout : t.out = u.out := by rw [hframe]
  rw [hout]
  exact hpos (Nat.le_trans (verify_run_outMatches hu).1 (by omega))

theorem quine_iff (s : State) : s.quine = true ↔ s.status = .haltEnd ∧ s.out.length = s.len.val := by
  simp [State.quine]

/-- Where out is where the program begins and as long as it, every cell of the program stands in out. -/
theorem OutMatches.cells_of_length {s : State} (hm : OutMatches s) (hlen : s.out.length = s.len.val) {i : Nat}
    (hi : i < s.len.val) : ∃ d, s.out[i]? = some d ∧ d.toNat = cellAt s i :=
  have hget : s.out[i]? = some s.out[i] := List.getElem?_eq_getElem (hlen ▸ hi)
  ⟨s.out[i], hget, (hm.2 i _ hget).symm⟩

/-- Settles O54: the invariant of a VERIFY run, and for the end of one that diverged the recorded position. -/
theorem verifyRunInvariant : Obligations.VerifyRunInvariant := by
  intro s n t h
  have hm := verify_run_outMatches h
  refine ⟨hm, ?_, fun ht => ⟨verify_run_divPos h ht, by simp [State.quine, ht]⟩⟩
  rw [quine_iff]
  constructor
  · rintro ⟨hend, hlen⟩; exact ⟨hend, hlen, fun _ => hm.cells_of_length hlen⟩
  · rintro ⟨hend, hlen, -⟩; exact ⟨hend, hlen⟩

end Sys2Proof.Safety
end

section
/-! Agreement of the two modes: MODE changes nothing but the outcome of an emit that the comparator turns down, so replacing
MODE commutes with every other step, and a run in one mode is a run in the other up to the first divergence
(spec/44_emit.md R82, R85, R86). -/
namespace Sys2Proof.Safety

open Sys2Proof.Machine

/-! ### One instruction in the other mode -/

/-- `OutMatches` does not depend on MODE. -/
theorem outMatches_withMode_iff (s : State) (m : Mode) : OutMatches (withMode s m) ↔ OutMatches s := Iff.rfl

theorem combo_withMode (s : State) (m : Mode) (v : Cell) : combo (withMode s m) v = combo s v := by
  have heval : ComboSource.eval (cellw := 8) (withMode s m) = ComboSource.eval s := by
    funext source
    cases source with
    | value v => rfl
    | register r => cases r <;> rfl
  simp only [combo, heval]

/-- An instruction with a combo operand commutes with replacing MODE where what it does with the operand's value does. -/
theorem withCombo_withMode {s : State} {m : Mode} (v : Cell) {body body' : Word → Host.Outcome State Fault Refusal}
    (hbody : ∀ x, ComboIs s v x → body' x = mapNext (withMode · m) (body x)) :
    withCombo (withMode s m) v body' = mapNext (withMode · m) (withCombo s v body) := by
  unfold withCombo
  rw [combo_withMode]
  cases hx : combo s v with
  | some x => exact hbody x ((combo_eq_some_iff s v x).1 hx)
  | none => rfl

theorem shiftInto_withMode (dest : Reg) (v : Cell) (s : State) (m : Mode) :
    shiftInto dest v (withMode s m) = mapNext (withMode · m) (shiftInto dest v s) := by
  refine withCombo_withMode v fun amount _ => ?_
  simp only [shrUnder_decided]
  rfl

theorem execJumpIfANonzero_withMode (v : Cell) (s : State) (m : Mode) :
    execJumpIfANonzero v (withMode s m) = mapNext (withMode · m) (execJumpIfANonzero v s) := by
  by_cases ha : s.a = 0
  · exact (exec_jumpIfANonzero_of_eq_zero (s := withMode s m) v ha).trans
      (congrArg (mapNext (withMode · m)) (exec_jumpIfANonzero_of_eq_zero v ha)).symm
  · exact (exec_jumpIfANonzero_of_ne_zero (s := withMode s m) v ha).trans
      (congrArg (mapNext (withMode · m)) (exec_jumpIfANonzero_of_ne_zero v ha)).symm

/-- Where the comparators of the two modes agree on the digit, emit commutes with replacing MODE. -/
theorem execEmit_withMode {s : State} {m : Mode} {v : Cell}
    (hagree : ∀ x, ComboIs s v x → (TurnedDown (withMode s m) x ↔ TurnedDown s x)) :
    execEmit v (withMode s m) = mapNext (withMode · m) (execEmit v s) := by
  refine withCombo_withMode v fun x hx => ?_
  have hverdict : (withMode s m).diverges x.mod8 = s.diverges x.mod8 := by
    rw [Bool.eq_iff_iff, diverges_iff_turnedDown, diverges_iff_turnedDown]
    exact hagree x hx
  rw [hverdict]
  cases s.diverges x.mod8 <;> rfl

/-- "MODE ... affects nothing but `emit`" (spec/44_emit.md R82), and emit only where the comparator answers differently. -/
theorem exec_withMode {s : State} {m : Mode} {i : Instr}
    (hagree : i.opcode.toNat = 5 → ∀ x, ComboIs s i.operand x → (TurnedDown (withMode s m) x ↔ TurnedDown s x)) :
    exec i (withMode s m) = mapNext (withMode · m) (exec i s) := by
  cases i with
  | shiftA v => exact shiftInto_withMode .a v s m
  | xorBLiteral v => rfl
  | storeBMod8 v => exact withCombo_withMode v fun _ _ => rfl
  | jumpIfANonzero v => exact execJumpIfANonzero_withMode v s m
  | xorBC v => rfl
  | emit v => exact execEmit_withMode (hagree rfl)
  | shiftBFromA v => exact shiftInto_withMode .b v s m
  | shiftCFromA v => exact shiftInto_withMode .c v s m

/-! ### One step in the other mode -/

/-- A step commutes with replacing MODE, unless it executes an emit on whose digit the comparators of the two modes
disagree. -/
theorem step_withMode {s : State} {m : Mode}
    (hagree : Fetches s → opcodeAt s = 5 → ∀ x, ComboIs s (operandAt s) x →
      (TurnedDown (withMode s m) x ↔ TurnedDown s x)) :
    step (withMode s m) = mapNext (withMode · m) (step s) := by
  rcases step_cases s with ⟨hs, h⟩ | ⟨hs, ⟨hend, h⟩ | ⟨hlast, h⟩ | ⟨hin, hop, h⟩ | ⟨hin, i, hd, h⟩⟩ <;> rw [h]
  · exact step_of_not_running hs
  · exact step_of_past_end hs hend
  · exact step_of_operand_missing hs hlast
  · exact step_of_invalid_opcode ⟨hs, hin⟩ hop
  · obtain ⟨hopcode, hoperand⟩ := (decodePair_ok_iff _ _ _).1 hd
    refine (stepRunsDecoded (withMode s m) i ⟨hs, hin⟩ hd).trans (exec_withMode fun h5 x hx => ?_)
    rw [hoperand] at hx
    exact hagree ⟨hs, hin⟩ ((congrArg BitVec.toNat hopcode).symm.trans h5) x hx

/-- A step that does not diverge is, in the other mode, the same step, or an emit whose digit is turned down there. -/
theorem step_withMode_cases {s t : State} (m : Mode) (h : step s = .next t) (ht : t.status ≠ .haltDiverged) :
    step (withMode s m) = .next (withMode t m) ∨
    ∃ x, TurnedDown (withMode s m) x ∧ step (withMode s m) = .next ((withMode s m).diverge x.mod8) ∧
      t = (s.append x.mod8).advance := by
  have hpass : Fetches s → opcodeAt s = 5 → ∀ x, ComboIs s (operandAt s) x → ¬ TurnedDown s x := by
    intro hf hop x hx hd
    cases (step_of_turnedDown hf hop hx hd).symm.trans h
    exact ht rfl
  by_cases hdown : ∃ x, Fetches s ∧ opcodeAt s = 5 ∧ ComboIs s (operandAt s) x ∧ TurnedDown (withMode s m) x
  · obtain ⟨x, hf, hop, hx, hd⟩ := hdown
    cases (step_of_not_turnedDown hf hop hx (hpass hf hop x hx)).symm.trans h
    exact .inr ⟨x, hd, step_of_turnedDown (s := withMode s m) hf hop hx hd, rfl⟩
  · have hcommutes : step (withMode s m) = mapNext (withMode · m) (step s) :=
      step_withMode fun hf hop x hx => iff_of_false (fun hd => hdown ⟨x, hf, hop, hx, hd⟩) (hpass hf hop x hx)
    rw [h] at hcommutes
    exact .inl hcommutes

/-! ### Runs in the other mode -/

/-- A digit that the comparator turns down does not stand in an out that is where the program begins. -/
theorem not_outMatches_of_turnedDown {s t : State} {x : Word} (hd : TurnedDown s x) (hp : t.prog = s.prog)
    (hl : t.len = s.len) (hout : s.out ++ [x.mod8] <+: t.out) : ¬ OutMatches t := by
  rintro ⟨hlen, hcells⟩
  obtain ⟨rest, hrest⟩ := hout
  have hdigit : t.out[s.out.length]? = some x.mod8 := by rw [← hrest]; simp
  have hroom : s.out.length < t.out.length := (List.getElem?_eq_some_iff.1 hdigit).1
  have hcell : cellAt s s.out.length = x.toNat % 8 := by
    have := hcells _ _ hdigit
    rwa [cellAt, hp, Word.mod8_toNat] at this
  rcases hd with ⟨-, hend | hne⟩
  · rw [hl] at hlen; omega
  · exact hne hcell

/-- A run that has not diverged is, in the other mode, the same run, or one that diverges on the way; the latter only where
out has left the program (spec/44_emit.md R86). -/
theorem runs_withMode {n : Nat} {s t : State} (m : Mode) (h : Runs n s t) (ht : t.status ≠ .haltDiverged) :
    Runs n (withMode s m) (withMode t m) ∨
    (¬ OutMatches t ∧ ∃ k u, k ≤ n ∧ Runs k (withMode s m) u ∧ u.status = .haltDiverged) := by
  induction n generalizing s with
  | zero => cases h; exact .inl rfl
  | succ n ih =>
    obtain ⟨v, hv, hrest⟩ := h
    have hvs : v.status ≠ .haltDiverged := fun hvd =>
      ht ((runs_of_not_running (by simp [hvd]) hrest).symm ▸ hvd)
    rcases step_withMode_cases m hv hvs with hstep | ⟨x, hd, hstep, rfl⟩
    · rcases ih hrest with hsame | ⟨hno, k, u, hk, hu, hdiv⟩
      · exact .inl ⟨_, hstep, hsame⟩
      · exact .inr ⟨hno, k + 1, u, Nat.succ_le_succ hk, ⟨_, hstep, hu⟩, hdiv⟩
    · obtain ⟨hp, hl, -⟩ := runs_keep_program_mode hrest
      exact .inr ⟨not_outMatches_of_turnedDown hd hp hl (runs_out_prefix hrest), 1, _, Nat.succ_pos n,
        ⟨_, hstep, rfl⟩, rfl⟩

/-- A FULL run never diverges (spec/44_emit.md R82). -/
theorem full_run_not_diverged {s : State} {n : Nat} {t : State} (h : Runs n (withMode s .full).launch t) :
    t.status ≠ .haltDiverged := by
  intro ht
  obtain ⟨k, u, hu, hlast⟩ := run_diverged_last h ht
  obtain ⟨-, -, x, -, hd, -⟩ := turnedDown_of_step_diverged hlast ht
  obtain ⟨-, -, hmode⟩ := runs_keep_program_mode hu
  exact not_turnedDown_of_full hmode x hd

/-- A VERIFY run that has not diverged is the FULL run (R86 a). -/
theorem full_run_of_verify_run {s : State} {n : Nat} {t : State} (h : Runs n (withMode s .verify).launch t)
    (ht : t.status ≠ .haltDiverged) : Runs n (withMode s .full).launch (withMode t .full) := by
  rcases runs_withMode .full h ht with hsame | ⟨-, k, u, -, hu, hdiv⟩
  · exact hsame
  · exact absurd hdiv (full_run_not_diverged hu)

/-- A FULL run whose out is where the program begins is the VERIFY run (R86 b). -/
theorem verify_run_of_full_run {s : State} {n : Nat} {t : State} (h : Runs n (withMode s .full).launch t)
    (hm : OutMatches t) : Runs n (withMode s .verify).launch (withMode t .verify) := by
  rcases runs_withMode .verify h (full_run_not_diverged h) with hsame | ⟨hno, -⟩
  · exact hsame
  · exact absurd hm hno

/-- The FULL run, where it ends, has gone past the point at which the VERIFY run diverged, and has emitted the digit turned
down there (R86 c). -/
theorem full_run_emits_divDigit {s : State} {n m : Nat} {t u : State} (h : Runs n (withMode s .verify).launch t)
    (ht : t.status = .haltDiverged) (hu : Runs m (withMode s .full).launch u) (hend : Finished u) :
    ∃ rest, u.out = t.out ++ t.divDigit :: rest := by
  obtain ⟨k, v, hv, hlast⟩ := run_diverged_last h ht
  obtain ⟨hf, hop, x, hx, -, rfl⟩ := turnedDown_of_step_diverged hlast ht
  have hvs : v.status ≠ .haltDiverged := by simp [hf.1]
  have hstep : step (withMode v .full) = .next ((withMode v .full).append x.mod8).advance :=
    step_of_not_turnedDown (s := withMode v .full) hf hop hx (not_turnedDown_of_full rfl x)
  have hpast := (runs_succ_iff_last _ _ _).2 ⟨_, full_run_of_verify_run hv hvs, hstep⟩
  obtain ⟨j, hj⟩ := runs_to_finished_through hpast hu hend
  obtain ⟨rest, hrest⟩ : v.out ++ [x.mod8] <+: u.out := runs_out_prefix hj
  exact ⟨rest, by rw [← hrest, List.append_assoc]; rfl⟩

/-- A VERIFY run diverges at a cell that is not the digit, or past the last cell, where out is the whole program. -/
theorem verify_run_divergence_cell {s : State} {n : Nat} {t : State} (h : Runs n (withMode s .verify).launch t)
    (ht : t.status = .haltDiverged) : cellAt t t.out.length ≠ t.divDigit.toNat ∨ t.out.length = t.len.val := by
  have hle := (verify_run_outMatches h).1
  obtain ⟨k, v, -, hlast⟩ := run_diverged_last h ht
  obtain ⟨-, -, x, -, ⟨-, hend | hne⟩, rfl⟩ := turnedDown_of_step_diverged hlast ht
  · exact .inr (Nat.le_antisymm hle hend)
  · left; rw [State.diverge_divDigit, Word.mod8_toNat]; exact hne

/-- Settles O56: a lemma per point; (d) needs only that the FULL run has not diverged. -/
theorem modesAgree : Obligations.ModesAgree := by
  refine fun s => ⟨fun n t => full_run_of_verify_run, fun n t h _ => verify_run_of_full_run h, fun n t h ht => ?_,
    fun n t h _ => ?_⟩
  · exact ⟨verify_run_divPos h ht, fun m u hu hend =>
      ⟨full_run_emits_divDigit h ht hu hend, verify_run_divergence_cell h ht⟩⟩
  · exact (runs_withMode .verify h (full_run_not_diverged h)).imp_right And.right

/-- Settles O55: the two runs are the same, by the two directions of the agreement; the VERIFY run has the match as its
invariant. -/
theorem quineTest : Obligations.QuineTest := by
  intro s
  constructor
  · rintro ⟨n, t, h, hquine⟩
    obtain ⟨hend, hlen⟩ := (quine_iff t).1 hquine
    exact ⟨n, _, full_run_of_verify_run h (by simp [hend]), hend, hlen,
      (outMatches_withMode_iff t .full).2 (verify_run_outMatches h)⟩
  · rintro ⟨n, t, h, hend, hlen, hm⟩
    exact ⟨n, _, verify_run_of_full_run h hm, (quine_iff _).2 ⟨hend, hlen⟩⟩

end Sys2Proof.Safety
end

section
/-! Faults: which check of a step takes one, what its entry leaves, and what ends it (spec/60_exceptions.md R89 to R91). -/
namespace Sys2Proof.Safety

open Sys2Proof.Machine

/-! ### Which step takes a fault -/

/-- A step ends in FAULT only through the entry of one of the three faults, and only where the check of that fault fires. -/
theorem step_fault_cases {s t : State} (h : step s = .next t) (ht : t.status = .fault) :
    (s.ip.toNat + 1 = s.len.val ∧ t = s.raise .fetchOutOfRange) ∨
    (Fetches s ∧ 8 ≤ opcodeAt s ∧ t = s.raise (.invalidOpcode (Memory.read s.prog s.ip.toNat))) ∨
    (Fetches s ∧ ComboOpcode (opcodeAt s) ∧ 7 ≤ (operandAt s).toNat ∧ t = s.raise (.invalidCombo (operandAt s))) := by
  obtain ⟨hs, ⟨-, rfl⟩ | hlast | hopcode | hcombo | ⟨-, -, x, -, -, rfl⟩ | ⟨-, -, x, -, -, rfl⟩ | ⟨-, -, -, rfl⟩ |
    ⟨-, -, -, rfl⟩ | ⟨-, -, -, -, -, r, w, rfl⟩⟩ := step_next_cases s t h
  · cases ht
  · exact .inl hlast
  · exact .inr (.inl hopcode)
  · exact .inr (.inr hcombo)
  · cases ht
  all_goals cases hs.symm.trans ht

/-- CAUSE is written by the fault entry alone. -/
theorem fault_of_cause_change {s t : State} (h : step s = .next t) (hcause : t.cause ≠ s.cause) : t.status = .fault := by
  rcases step_ends_or_goes_on h with rfl | ⟨trap, rfl⟩ | ⟨d, rfl⟩ | ⟨-, hkept, -⟩
  · exact absurd rfl hcause
  · rfl
  · exact absurd rfl hcause
  · exact absurd hkept hcause

/-- A fault with the cause FetchOutOfRange was taken at ip = LEN - 1. -/
theorem last_cell_of_fetchOutOfRange {s t : State} (h : step s = .next t) (ht : t.status = .fault)
    (hcause : t.cause = .fetchOutOfRange) : s.ip.toNat + 1 = s.len.val := by
  rcases step_fault_cases h ht with ⟨hlast, -⟩ | ⟨-, -, rfl⟩ | ⟨-, -, -, rfl⟩
  · exact hlast
  · cases hcause
  · cases hcause

/-- At every state of a run CAUSE tells whether it has faulted. -/
theorem runs_cause_iff_fault {n : Nat} {s t : State} (h : Runs n s.launch t) : t.cause ≠ .none ↔ t.status = .fault := by
  have hlaunch : CauseInv s.launch := causeInv_of_cleared nofun rfl ⟨rfl, rfl⟩ ⟨rfl, rfl⟩
  obtain ⟨hcause, -, -⟩ := runs_keep CauseInv (fun _ _ => step_keeps_causeInv) n s.launch t hlaunch h
  exact hcause

/-- Settles O28: the cause is new, so a fault was taken, and at LEN - 1; of two neighbours LEN - 1 and LEN one is odd. The
last part is O59: without a fault there is no cause. -/
theorem fetchOutOfRangeRaised : Obligations.FetchOutOfRangeRaised := by
  refine ⟨rfl, fun s hs hlast => step_of_operand_missing hs hlast, fun s t h hnone hcause => ?_,
    fun s n t hw hj hrun hcause => ?_⟩
  · have hfault : t.status = .fault := fault_of_cause_change h (by simp [hnone, hcause])
    have hlast := last_cell_of_fetchOutOfRange h hfault hcause
    exact ⟨hlast, by omega⟩
  · obtain ⟨hno, -⟩ := wellFormedNeverFaults s n t hw hj hrun
    exact hno ((runs_cause_iff_fault hrun).1 (by simp [hcause]))

/-! ### What follows a fault -/

/-- Settles O32: `State.raise` writes the four fields of `faulted`; after it the report is the abort, and STATUS is not
RUNNING. -/
theorem faultEntry : Obligations.FaultEntry := by
  refine ⟨⟨rfl, rfl, rfl⟩, fun s t h ht => ?_⟩
  obtain ⟨-, -, aborted, -⟩ := runDelivers t
  obtain ⟨-, hresult⟩ := aborted ht
  refine ⟨?_, hresult, fun u hu => ?_⟩
  · rcases step_fault_cases h ht with ⟨-, rfl⟩ | ⟨-, -, rfl⟩ | ⟨-, -, -, rfl⟩
    · exact .inr (.inr rfl)
    · exact .inl rfl
    · exact .inr (.inl rfl)
  · cases ht.symm.trans ((stepsExactlyWhenRunning t).1 ⟨u, hu⟩)

/-- Outside a run the only run is the one of no steps. -/
theorem runs_iff_of_not_running {s : State} (hs : s.status ≠ .running) (n : Nat) (t : State) :
    Runs n s t ↔ n = 0 ∧ t = s := by
  refine ⟨fun h => ⟨?_, runs_of_not_running hs h⟩, by rintro ⟨rfl, rfl⟩; rfl⟩
  cases n with
  | zero => rfl
  | succ n =>
    obtain ⟨u, hu, -⟩ := h
    exact absurd ((stepsExactlyWhenRunning s).1 ⟨u, hu⟩) hs

/-- Settles O34: FAULT is not RUNNING, so there is no step and both transactions are open to the host; START is the launch
reset, LOAD is `State.loadInputs`, and each clears CAUSE and the information fields. -/
theorem faultSticky : Obligations.FaultSticky := by
  refine ⟨fun s hs n t => (runs_iff_of_not_running (by simp [hs]) n t).1, fun s t _ hstart => ?_, fun s r hs => ?_⟩
  · obtain ⟨-, -, rfl⟩ := (hostStart_next_iff s t).1 hstart
    exact ⟨rfl, rfl, rfl, rfl, rfl, rfl⟩
  · exact ⟨s.loadInputs r, (hostLoad_next_iff r s _).2 ⟨by simp [hs], rfl⟩, rfl, rfl, rfl, rfl⟩

end Sys2Proof.Safety
end

section
/-! What LOAD writes and when START and READ are offered (spec/70_reset_and_hazards.md R103 to R105, R107 to R109), the clean
entry into a run (R110), and how many of its steps complete an instruction (R113). -/
namespace Sys2Proof.Machine

variable {xlen cellw lenMax ipw : Nat}

/-! ### LOAD (R104) -/

/-- A launch input after a LOAD: the value named, or the one it had. -/
theorem named_or_kept {α : Type} (input : Option α) (old : α) :
    (∀ v, input = some v → input.getD old = v) ∧ (input = none → input.getD old = old) :=
  ⟨fun _ h => by rw [h]; rfl, fun h => by rw [h]; rfl⟩

/-- After a LOAD of a program LEN is its length and the store holds its cells. -/
theorem State.loadInputs_holds_program (s : State xlen cellw lenMax ipw) {r : LoadRequest xlen cellw lenMax}
    {p : Program cellw lenMax} (h : r.program = some p) :
    (s.loadInputs r).len.val = p.cells.length ∧
      ∀ i x, p.cells[i]? = some x → Memory.read (s.loadInputs r).prog i = x := by
  refine ⟨s.loadInputs_len_some r p h, fun i x hx => ?_⟩
  have hfits : 0 + p.cells.length ≤ lenMax := by have := p.fits; omega
  rw [s.loadInputs_prog_some r p h, Memory.read_writeCells [] 0 i p.cells rfl hfits]
  simp [hx]

/-! ### What a sequence of LOADs has supplied (R103, R107) -/

theorem Loaded.complete_iff (l : Loaded) :
    l.complete = true ↔ l.program = true ∧ l.aInit = true ∧ l.bInit = true ∧ l.cInit = true ∧ l.mode = true := by
  simp [Loaded.complete, and_assoc]

/-- One LOAD of every launch input is complete. -/
theorem State.loadInputs_all_complete (s : State xlen cellw lenMax ipw) (p : Program cellw lenMax) (wa wb wc : Word xlen)
    (m : Mode) : (s.loadInputs ⟨some p, some wa, some wb, some wc, some m⟩).loaded.complete = true := by
  simp [Loaded.complete_iff, State.loadInputs]

/-- A flag of `Loaded` that every LOAD sets where it names the input is set, after a sequence of LOADs, exactly where one of
them named the input, or it was set before. -/
theorem flag_foldl_loadInputs_iff {flag : Loaded → Bool} {named : LoadRequest xlen cellw lenMax → Bool}
    (hload : ∀ (s : State xlen cellw lenMax ipw) r, flag (s.loadInputs r).loaded = (flag s.loaded || named r))
    (rs : List (LoadRequest xlen cellw lenMax)) (s : State xlen cellw lenMax ipw) :
    flag (rs.foldl State.loadInputs s).loaded = true ↔ flag s.loaded = true ∨ ∃ r ∈ rs, named r = true := by
  induction rs generalizing s with
  | nil => simp
  | cons r rs ih => simp [ih, hload, or_assoc]

/-- LOADs begin no run. -/
theorem foldl_loadInputs_not_running (rs : List (LoadRequest xlen cellw lenMax)) {s : State xlen cellw lenMax ipw}
    (hs : s.status ≠ .running) : (rs.foldl State.loadInputs s).status ≠ .running := by
  induction rs generalizing s with
  | nil => exact hs
  | cons r rs ih => exact ih (s := s.loadInputs r) nofun

/-! ### The host during a run (R105, R108, R109) -/

/-- During a run every transaction but power-on is refused. -/
theorem hostMove_of_running {m : HostMove xlen cellw lenMax} {s : State xlen cellw lenMax ipw} (hs : s.status = .running)
    (hm : m ≠ .powerOn) : hostMove m s = .refused .hostMoveWhileRunning := by
  cases m with
  | powerOn => exact absurd rfl hm
  | load r => exact if_pos hs
  | start => exact if_pos hs

/-- READ is offered outside a run, and of STATUS during one, and returns the item. -/
theorem hostRead_ok_iff (item : ReadItem) (s : State xlen cellw lenMax ipw) (v : ReadValue) :
    hostRead item s = .ok v ↔ (s.status ≠ .running ∨ item = .status) ∧ s.readItem item = v := by
  by_cases hs : s.status = .running <;> by_cases hi : item = .status <;> simp [hostRead, hs, hi]

end Sys2Proof.Machine

namespace Sys2Proof.Safety

open Sys2Proof.Machine

/-- Settles O44: where LOAD is offered it is `State.loadInputs`; each launch input is the one named or the one before. -/
theorem loadEffect : Obligations.LoadEffect := by
  intro s r hs
  obtain ⟨aNamed, aKept⟩ := named_or_kept r.aInit s.aInit
  obtain ⟨bNamed, bKept⟩ := named_or_kept r.bInit s.bInit
  obtain ⟨cNamed, cKept⟩ := named_or_kept r.cInit s.cInit
  obtain ⟨modeNamed, modeKept⟩ := named_or_kept r.mode s.mode
  exact ⟨s.loadInputs r, (hostLoad_next_iff r s _).2 ⟨hs, rfl⟩, rfl, rfl, rfl, rfl, rfl, rfl, rfl, rfl, rfl, rfl, rfl,
    fun _ => s.loadInputs_holds_program, fun h => (s.loadInputs_prog_none r h).symm,
    aNamed, aKept, bNamed, bKept, cNamed, cKept, modeNamed, modeKept⟩

/-- Settles O45: after LOADs alone STATUS is not RUNNING, and at power-on no flag is set, so each of the five flags
stands for a LOAD in the sequence that named its input. -/
theorem startNeedsEveryInput : Obligations.StartNeedsEveryInput := by
  intro rs
  have supplied {flag : Loaded → Bool} {named : LoadRequest → Bool} (hreset : flag Loaded.nothing = false)
      (hload : ∀ (s : State) r, flag (s.loadInputs r).loaded = (flag s.loaded || named r)) :
      flag (rs.foldl State.loadInputs State.reset).loaded = true ↔ ∃ r ∈ rs, named r = true := by
    rw [flag_foldl_loadInputs_iff hload]
    exact or_iff_right (ne_true_of_eq_false hreset)
  have offered : (∃ t, hostStart (rs.foldl State.loadInputs State.reset) = .next t) ↔
      (rs.foldl State.loadInputs State.reset).loaded.complete = true := by
    simp [hostStart_next_iff, foldl_loadInputs_not_running rs (s := State.reset) nofun]
  rw [offered, Loaded.complete_iff]
  exact and_congr (supplied (flag := (·.program)) rfl fun _ _ => rfl) <|
    and_congr (supplied (flag := (·.aInit)) rfl fun _ _ => rfl) <|
    and_congr (supplied (flag := (·.bInit)) rfl fun _ _ => rfl) <|
    and_congr (supplied (flag := (·.cInit)) rfl fun _ _ => rfl) (supplied (flag := (·.mode)) rfl fun _ _ => rfl)

/-- Settles O48: the LOAD names every input, so the START after it is offered; the launch reset keeps the store, and so does
every step of the run. -/
theorem cleanEntry : Obligations.CleanEntry := by
  intro s p wa wb wc m hs
  have hload := (hostLoad_next_iff ⟨some p, some wa, some wb, some wc, some m⟩ s _).2 ⟨hs, rfl⟩
  have hstart := (hostStart_next_iff _ _).2 ⟨by simp, s.loadInputs_all_complete p wa wb wc m, rfl⟩
  obtain ⟨hlen, hcells⟩ := s.loadInputs_holds_program (r := ⟨some p, some wa, some wb, some wc, some m⟩) rfl
  refine ⟨_, _, hload, hstart, rfl, rfl, rfl, rfl, rfl, rfl, rfl, rfl, hlen, hcells, fun n u hrun i => ?_⟩
  obtain ⟨hprog, -, -⟩ := runs_keep_program_mode hrun
  rw [hprog]

/-! ### Step counts (R113) -/

/-- A step that leaves the run in progress counts as one completion. -/
theorem completions_succ {n : Nat} {s u : State} (h : step s = .next u) :
    completions (n + 1) s = (if u.status = .running then 1 else 0) + completions n u := by
  simp [completions, h]

/-- Settles O57, by induction on the number of steps: a step after which the run goes on completes an instruction, and one
after which it does not is the last. -/
theorem stepCount : Obligations.StepCount := by
  intro n s t hs hrun ht
  induction n generalizing s with
  | zero => cases hrun; exact absurd hs (not_running_of_finished ht)
  | succ n ih =>
    obtain ⟨u, hstep, hrest⟩ := hrun
    rw [completions_succ hstep]
    by_cases hu : u.status = .running
    · have hcount := ih u hu hrest
      rw [if_pos hu]; omega
    · obtain ⟨rfl, -⟩ := (runs_iff_of_not_running hu n t).1 hrest
      rw [if_neg hu]; rfl

/-! ### The host during a run -/

/-- Settles O46: LOAD and START are refused, and of the moves that are answered only power-on is open during a run. -/
theorem noHostMoveWhileRunning : Obligations.NoHostMoveWhileRunning := by
  intro s m hs
  refine ⟨⟨?_, hostMove_of_running hs⟩, fun t h => ?_⟩
  · rintro h rfl; cases h
  · rcases hostMove_next_cases h with ⟨-, ht⟩ | ⟨r, -, hidle, -⟩ | ⟨-, hidle, -, -⟩
    · exact ht
    · exact absurd hs hidle
    · exact absurd hs hidle

/-- Settles O47: READ returns `State.readItem` where it is offered, and the codes of STATUS and CAUSE are the numbers of R19
and R20. -/
theorem readReturns : Obligations.ReadReturns := by
  intro s
  refine ⟨(hostRead_ok_iff _ s _).2 ⟨.inr rfl, ?_⟩, fun item => by simp [hostRead_ok_iff], fun hs => ?_⟩
  · simp only [State.readItem]
    cases s.status <;> rfl
  · have read {item : ReadItem} {v : ReadValue} (hv : s.readItem item = v) : hostRead item s = .ok v :=
      (hostRead_ok_iff item s v).2 ⟨.inl hs, hv⟩
    refine ⟨read ?_, read rfl, read rfl, read rfl, read rfl, read rfl, read rfl, read rfl, read rfl, read rfl⟩
    simp only [State.readItem]
    cases s.cause <;> rfl

end Sys2Proof.Safety
end

section
/-! Which pairs of cells are legal, and how many of them each opcode cell has (spec/30_encoding.md R45 to R50;
spec/95_test_vectors.md section 2.6). -/
namespace Sys2Proof

/-- A combo operand must be 0 to 6, and no other operand is refused. -/
theorem wellFormed_iff (i : Instr) : i.wellFormed = true ↔ (i.kind = .combo → i.operand.toNat ≤ 6) := by
  cases h : i.kind <;> simp [Instr.wellFormed, h, comboCellOk]

/-- Two cells that decode to a well-formed instruction; `legalOperandsPerOpcode` counts these. -/
def legalPair (opcode operand : Cell) : Bool :=
  match decodePair opcode operand with
  | .ok i => i.wellFormed
  | .error _ => false

/-- A pair is legal when its opcode takes a literal or ignores the operand, or takes a combo operand and has 0 to 6. -/
theorem legalPair_iff (opcode operand : Cell) :
    legalPair opcode operand = true ↔
      (opcode.toNat = 1 ∨ opcode.toNat = 3 ∨ opcode.toNat = 4) ∨ (opcode.toNat ≤ 7 ∧ operand.toNat ≤ 6) := by
  cases hd : decodePair opcode operand with
  | ok i =>
    obtain ⟨hcombo, -, -⟩ := operandKindPerOpcode opcode operand i hd
    obtain ⟨hopcode, hoperand⟩ := (decodePair_ok_iff opcode operand i).1 hd
    have hle : opcode.toNat ≤ 7 := hopcode ▸ i.opcode_le
    simp only [legalPair, hd, wellFormed_iff, hcombo, hoperand]
    omega
  | error e =>
    obtain ⟨habove, -⟩ := (decodePair_error_iff opcode operand e).1 hd
    simp only [legalPair, hd, Bool.false_eq_true, false_iff]
    omega

/-- The legal operand cells beside an opcode cell, as numbers. -/
theorem filter_legalPair (opcode : Cell) :
    (List.range 256).filter (fun v => legalPair opcode (BitVec.ofNat 8 v)) =
      (List.range 256).filter fun v =>
        decide ((opcode.toNat = 1 ∨ opcode.toNat = 3 ∨ opcode.toNat = 4) ∨ (opcode.toNat ≤ 7 ∧ v ≤ 6)) := by
  refine List.filter_congr fun v hv => ?_
  have hcell : (BitVec.ofNat 8 v).toNat = v := Nat.mod_eq_of_lt (List.mem_range.1 hv)
  rw [Bool.eq_iff_iff, decide_eq_true_iff, legalPair_iff, hcell]

/-- Settles O4: every operand is legal beside 1, 3 and 4, those of at most 6 beside the other opcodes, none above 7. -/
theorem legalOperandsPerOpcode : Obligations.LegalOperandsPerOpcode := by
  intro opcode
  change ((List.range 256).filter fun v => legalPair opcode (BitVec.ofNat 8 v)).length = _
  rw [filter_legalPair]
  by_cases hany : opcode.toNat = 1 ∨ opcode.toNat = 3 ∨ opcode.toNat = 4
  · simp only [hany, true_or, decide_true, List.filter_true, List.length_range, if_true]
  · by_cases hle : opcode.toNat ≤ 7
    · simp only [hany, hle, false_or, true_and, if_true, if_false]
      decide
    · simp only [hany, hle, false_or, false_and, decide_false, List.filter_false, List.length_nil, if_false]

end Sys2Proof
end
